-- ==== Sys2Proof/Word.lean ====
section
/-! DEFINITION. The word types of the block (spec/00_scope.md R7, R9): every register, memory and field value is an
unsigned number of a stated width. Nothing here can be wrong but a width; the bit fields of an instruction word are in
Decode.lean, the zero extensions in Machine/Operands.lean. -/

namespace Sys2Proof

/-- An 8-bit value: a general register, a memory byte, the delay timer, the immediate `kk` (R7). -/
abbrev Byte := BitVec 8

/-- A 16-bit address-like value: `I`, `PC`, one entry of the call stack (R7). -/
abbrev Addr := BitVec 16

/-- A 16-bit instruction word (R80). -/
abbrev Word := BitVec 16

/-- A 4-bit slice of an instruction word (R14, R81). -/
abbrev Nibble := BitVec 4

/-- The index of a general register V0..VF (R20). -/
abbrev Reg := Fin 16

/-- VF, register 15, the flag register (R21). -/
abbrev vf : Reg := 15

end Sys2Proof
end

