-- ==== Sys2Proof/Machine/Flags.lean ====
section
/-! DEFINITION. Every flag the block computes (spec/10_state.md R22): the value written to VF is exactly 0x01 or 0x00 (R170). -/

namespace Sys2Proof.Machine

/-- A condition as a flag value (R170). -/
def flagOf (p : Bool) : Byte := if p then 0x01#8 else 0x00#8

/-- The carry of AddCarry: 1 when the exact sum is above 255 (R179). -/
def carryFlag (a b : Byte) : Byte := flagOf (decide (a.toNat + b.toNat > 255))

/-- Not-borrow of `a - b`: 1 when `a >= b`, equality included (R180, R182). -/
def notBorrowFlag (a b : Byte) : Byte := flagOf (decide (a.toNat ≥ b.toNat))

/-- The bit a right shift moves out: bit 0 (R181). -/
def shiftOutLow (b : Byte) : Byte := flagOf (b.getLsbD 0)

/-- The bit a left shift moves out: bit 7 (R183). -/
def shiftOutHigh (b : Byte) : Byte := flagOf (b.getLsbD 7)

/-- The collision flag of Draw (R214). -/
def collisionFlag (coll : Bool) : Byte := flagOf coll

end Sys2Proof.Machine
end

