-- ==== Sys2Proof/Config.lean ====
section
/-! DEFINITION. What one machine fixes, and the free values. The glyph table and its base address (spec/20_memory.md
R55, R56) are constants too; they stand in Machine/Memory.lean beside the reset contents they determine. The call-stack
limit `STACK_DEPTH`, which the spec leaves OPEN (spec/92_eei_decisions.md D5), is an argument of the model: the field
`stackDepth` of State. -/

namespace Sys2Proof.Config

/-- The number of bytes of memory: addresses 0x000..0xFFF exist and no others (R7, R50). -/
def memSize : Nat := 0x1000

/-- Where `load` puts the first byte of a program image (R7, R58, R121). -/
def loadBase : Nat := 0x200

/-- The value of `PC` after reset (R24, R34, R301). -/
def resetVector : Addr := 0x200#16

/-- The longest program image `load` accepts: 0xE00 bytes, which end at 0xFFF (R121). -/
def maxImage : Nat := memSize - loadBase

/-- FREE VALUE (R125, spec/92_eei_decisions.md D18; log entry 1): the random byte of the `k`-th `Random` that is executed.
It has no body, so no proof can see a value of it: what is proved holds for every sequence of draws. -/
opaque randomByte : Nat → Byte

end Sys2Proof.Config
end

