-- ==== Sys2Proof/Syntax.lean ====
section
/-! DEFINITION. The decoded operations: one constructor per row of spec/opcode_table.json, with exactly the operand fields of
that row (spec/30_encoding.md R84, R89). Register indices are `Fin 16`; `kk` and `nnn` keep their encoded widths; the row
count of `draw` is a count, a `Nat`, whose bound (R82: 0..15) WellFormed.lean checks. -/

namespace Sys2Proof

/-- A decoded operation (R14, "a closed, tagged set of variants"). -/
inductive Instr where
  /-- `00E0` Clear (R213) -/
  | clear
  /-- `00EE` Return (R148) -/
  | ret
  /-- `1nnn` Jump (R145) -/
  | jump (nnn : BitVec 12)
  /-- `2nnn` Call (R146) -/
  | call (nnn : BitVec 12)
  /-- `3xkk` SkipEqImm (R141) -/
  | skipEqImm (x : Reg) (kk : Byte)
  /-- `4xkk` SkipNeImm (R142) -/
  | skipNeImm (x : Reg) (kk : Byte)
  /-- `5xy0` SkipEqReg (R143) -/
  | skipEqReg (x y : Reg)
  /-- `6xkk` SetImm (R172) -/
  | setImm (x : Reg) (kk : Byte)
  /-- `7xkk` AddImm (R173) -/
  | addImm (x : Reg) (kk : Byte)
  /-- `8xy0` Copy (R175) -/
  | copy (x y : Reg)
  /-- `8xy1` Or (R176) -/
  | or (x y : Reg)
  /-- `8xy2` And (R177) -/
  | and (x y : Reg)
  /-- `8xy3` Xor (R178) -/
  | xor (x y : Reg)
  /-- `8xy4` AddCarry (R179) -/
  | addCarry (x y : Reg)
  /-- `8xy5` SubBorrow (R180) -/
  | subBorrow (x y : Reg)
  /-- `8xy6` ShiftRight (R181) -/
  | shiftRight (x y : Reg)
  /-- `8xy7` SubnBorrow (R182) -/
  | subnBorrow (x y : Reg)
  /-- `8xyE` ShiftLeft (R183) -/
  | shiftLeft (x y : Reg)
  /-- `9xy0` SkipNeReg (R144) -/
  | skipNeReg (x y : Reg)
  /-- `Annn` SetIndex (R240) -/
  | setIndex (nnn : BitVec 12)
  /-- `Bnnn` JumpAddV0 (R147) -/
  | jumpAddV0 (nnn : BitVec 12)
  /-- `Cxkk` Random (R174) -/
  | random (x : Reg) (kk : Byte)
  /-- `Dxyn` Draw (R214) -/
  | draw (x y : Reg) (n : Nat)
  /-- `Fx1E` AddToIndex (R241) -/
  | addToIndex (x : Reg)
  /-- `Fx33` StoreBCD (R242) -/
  | storeBCD (x : Reg)
  /-- `Fx55` StoreRegs (R243) -/
  | storeRegs (x : Reg)
  /-- `Fx65` LoadRegs (R244) -/
  | loadRegs (x : Reg)
  /-- every other word: Unknown, a no-op with no operands (R88, R246) -/
  | unknown
  deriving DecidableEq, Repr

end Sys2Proof
end

