-- ==== Sys2Proof/WellFormed.lean ====
section
/-! DEFINITION. What an instruction, and a program image, must satisfy beyond its type. Register indices, `kk` and `nnn` are
in range by their types; the row count of `draw` is not, so it is checked (spec/30_encoding.md R82: "n = w[3:0] is a 4-bit
unsigned row count, 0..15"). -/

namespace Sys2Proof

/-- The instruction is one that some word encodes (R82, R89). -/
def Instr.wellFormed : Instr → Bool
  | .draw _ _ n => n < 16
  | .clear | .ret | .unknown => true
  | .jump _ | .call _ | .setIndex _ | .jumpAddV0 _ => true
  | .skipEqImm _ _ | .skipNeImm _ _ | .setImm _ _ | .addImm _ _ | .random _ _ => true
  | .skipEqReg _ _ | .skipNeReg _ _ => true
  | .copy _ _ | .or _ _ | .and _ _ | .xor _ _ => true
  | .addCarry _ _ | .subBorrow _ _ | .shiftRight _ _ | .subnBorrow _ _ | .shiftLeft _ _ => true
  | .addToIndex _ | .storeBCD _ | .storeRegs _ | .loadRegs _ => true

/-- A program image that `load` accepts: at most 0xE00 bytes (R121). -/
def imageWellFormed (b : List Byte) : Bool := b.length ≤ Config.maxImage

end Sys2Proof
end

