-- ==== Sys2Proof/Decode.lean ====
section
/-! DEFINITION. The decoder (spec/30_encoding.md R80 to R89), the encoder, the opcode table as rows of mask and match, and the
host's `decodeTableWord`. Decoding a word is total: a word of no row is the operation `unknown`, which is no error (R88). The
only thing refused, by name, is a byte sequence too short to hold a word. -/

namespace Sys2Proof

/-- `c = w[15:12]`, the opcode class (R13, R81). -/
def fieldC (w : Word) : Nibble := w.extractLsb' 12 4

/-- `x = w[11:8]` as bits (R13, R81). -/
def nibbleX (w : Word) : Nibble := w.extractLsb' 8 4

/-- `y = w[7:4]` as bits (R13, R81). -/
def nibbleY (w : Word) : Nibble := w.extractLsb' 4 4

/-- `d = w[3:0]`, the discriminator nibble (R13, R81). -/
def fieldD (w : Word) : Nibble := w.extractLsb' 0 4

/-- `x` as the index of a register (R81). -/
def fieldX (w : Word) : Reg := (nibbleX w).toFin

/-- `y` as the index of a register (R81). -/
def fieldY (w : Word) : Reg := (nibbleY w).toFin

/-- `kk = w[7:0]`, the 8-bit immediate (R13, R82). -/
def fieldKK (w : Word) : Byte := w.extractLsb' 0 8

/-- `nnn = w[11:0]`, the 12-bit address (R13, R82). -/
def fieldNNN (w : Word) : BitVec 12 := w.extractLsb' 0 12

/-- `n = w[3:0]`, the row count of Draw (R13, R82). -/
def fieldN (w : Word) : Nat := (fieldD w).toNat

/-- Class 0: `00E0` and `00EE`; every other word of the class is Unknown (R84 rows 1 and 2, R88). -/
def decodeClass0 (w : Word) : Instr :=
  if w = 0x00E0#16 then .clear else if w = 0x00EE#16 then .ret else .unknown

/-- Class 8: the nine operations of R86, by the discriminator `d`; the other seven values are Unknown. The discriminator
values are the spec's decision D7, PRESUMED there from general knowledge (log entry 9). -/
def decodeClass8 (w : Word) : Instr :=
  match fieldD w with
  | 0x0#4 => .copy (fieldX w) (fieldY w)
  | 0x1#4 => .or (fieldX w) (fieldY w)
  | 0x2#4 => .and (fieldX w) (fieldY w)
  | 0x3#4 => .xor (fieldX w) (fieldY w)
  | 0x4#4 => .addCarry (fieldX w) (fieldY w)
  | 0x5#4 => .subBorrow (fieldX w) (fieldY w)
  | 0x6#4 => .shiftRight (fieldX w) (fieldY w)
  | 0x7#4 => .subnBorrow (fieldX w) (fieldY w)
  | 0xE#4 => .shiftLeft (fieldX w) (fieldY w)
  | _ => .unknown

/-- Class F: the low byte selects the operation (R87). -/
def decodeClassF (w : Word) : Instr :=
  if fieldKK w = 0x1E#8 then .addToIndex (fieldX w)
  else if fieldKK w = 0x33#8 then .storeBCD (fieldX w)
  else if fieldKK w = 0x55#8 then .storeRegs (fieldX w)
  else if fieldKK w = 0x65#8 then .loadRegs (fieldX w)
  else .unknown

/-- `decode(w)` (R84 to R89), by the class nibble. Class E has no operation (R88). -/
def decode (w : Word) : Instr :=
  match fieldC w with
  | 0x0#4 => decodeClass0 w
  | 0x1#4 => .jump (fieldNNN w)
  | 0x2#4 => .call (fieldNNN w)
  | 0x3#4 => .skipEqImm (fieldX w) (fieldKK w)
  | 0x4#4 => .skipNeImm (fieldX w) (fieldKK w)
  | 0x5#4 => if fieldD w = 0x0#4 then .skipEqReg (fieldX w) (fieldY w) else .unknown
  | 0x6#4 => .setImm (fieldX w) (fieldKK w)
  | 0x7#4 => .addImm (fieldX w) (fieldKK w)
  | 0x8#4 => decodeClass8 w
  | 0x9#4 => if fieldD w = 0x0#4 then .skipNeReg (fieldX w) (fieldY w) else .unknown
  | 0xA#4 => .setIndex (fieldNNN w)
  | 0xB#4 => .jumpAddV0 (fieldNNN w)
  | 0xC#4 => .random (fieldX w) (fieldKK w)
  | 0xD#4 => .draw (fieldX w) (fieldY w) (fieldN w)
  | 0xF#4 => decodeClassF w
  | _ => .unknown

/-- Why a byte sequence is no instruction. -/
inductive Reject where
  /-- fewer than the 2 bytes that every instruction takes (R80) -/
  | truncated
  deriving DecidableEq, Repr

/-- The word of two bytes: the byte at the lower address is the high byte (R60). -/
def bytesWord (hi lo : Byte) : Word := hi ++ lo

/-- Decode the first instruction of a byte sequence: always 2 bytes, the high byte first (R60, R80). -/
def decodeBytes : List Byte → Except Reject (Instr × List Byte)
  | hi :: lo :: rest => .ok (decode (bytesWord hi lo), rest)
  | [_] => .error .truncated
  | [] => .error .truncated

/-- A register index as the nibble that encodes it. -/
def Reg.nibble (r : Reg) : Nibble := BitVec.ofFin r

/-- Format XKK: `cccc xxxx kkkk kkkk` (R83). -/
def wordXKK (c : Nibble) (x : Reg) (kk : Byte) : Word := c ++ Reg.nibble x ++ kk

/-- Format NNN: `cccc nnnn nnnn nnnn` (R83). -/
def wordNNN (c : Nibble) (nnn : BitVec 12) : Word := c ++ nnn

/-- Formats XY and XYN: `cccc xxxx yyyy dddd` (R83). -/
def wordXYD (c : Nibble) (x y : Reg) (d : Nibble) : Word := c ++ Reg.nibble x ++ Reg.nibble y ++ d

/-- The word of an instruction, from the formats of R83 and the rows of R84. `unknown` carries no word (R89); it is encoded
as `0000`, one of the words that decode to it (R88; log entry 12). -/
def encode : Instr → Word
  | .clear => 0x00E0#16
  | .ret => 0x00EE#16
  | .jump nnn => wordNNN 0x1#4 nnn
  | .call nnn => wordNNN 0x2#4 nnn
  | .skipEqImm x kk => wordXKK 0x3#4 x kk
  | .skipNeImm x kk => wordXKK 0x4#4 x kk
  | .skipEqReg x y => wordXYD 0x5#4 x y 0x0#4
  | .setImm x kk => wordXKK 0x6#4 x kk
  | .addImm x kk => wordXKK 0x7#4 x kk
  | .copy x y => wordXYD 0x8#4 x y 0x0#4
  | .or x y => wordXYD 0x8#4 x y 0x1#4
  | .and x y => wordXYD 0x8#4 x y 0x2#4
  | .xor x y => wordXYD 0x8#4 x y 0x3#4
  | .addCarry x y => wordXYD 0x8#4 x y 0x4#4
  | .subBorrow x y => wordXYD 0x8#4 x y 0x5#4
  | .shiftRight x y => wordXYD 0x8#4 x y 0x6#4
  | .subnBorrow x y => wordXYD 0x8#4 x y 0x7#4
  | .shiftLeft x y => wordXYD 0x8#4 x y 0xE#4
  | .skipNeReg x y => wordXYD 0x9#4 x y 0x0#4
  | .setIndex nnn => wordNNN 0xA#4 nnn
  | .jumpAddV0 nnn => wordNNN 0xB#4 nnn
  | .random x kk => wordXKK 0xC#4 x kk
  | .draw x y n => wordXYD 0xD#4 x y (BitVec.ofNat 4 n)
  | .addToIndex x => wordXKK 0xF#4 x 0x1E#8
  | .storeBCD x => wordXKK 0xF#4 x 0x33#8
  | .storeRegs x => wordXKK 0xF#4 x 0x55#8
  | .loadRegs x => wordXKK 0xF#4 x 0x65#8
  | .unknown => 0x0000#16

/-- The high byte of a word: the one stored at the lower address (R60). -/
def highByte (w : Word) : Byte := w.extractLsb' 8 8

/-- The low byte of a word (R60). -/
def lowByte (w : Word) : Byte := w.extractLsb' 0 8

/-- The two bytes of a word, in the order of their addresses (R60). -/
def wordBytes (w : Word) : List Byte := [highByte w, lowByte w]

/-- The two bytes of an instruction, in the order of their addresses. -/
def encodeBytes (i : Instr) : List Byte := wordBytes (encode i)

/-- One row of the decode table of R84: a word `w` matches it when `w & mask = pattern`, and `op` reads the operands. -/
structure TableRow where
  mask : Word
  pattern : Word
  op : Word → Instr

/-- `w` matches the row (R84). -/
def TableRow.hit (w : Word) (r : TableRow) : Bool := w &&& r.mask == r.pattern

/-- Rows 1 to 9 of R84. -/
def tableRowsLow : List TableRow :=
  [⟨0xFFFF, 0x00E0, fun _ => .clear⟩, ⟨0xFFFF, 0x00EE, fun _ => .ret⟩,
   ⟨0xF000, 0x1000, fun w => .jump (fieldNNN w)⟩, ⟨0xF000, 0x2000, fun w => .call (fieldNNN w)⟩,
   ⟨0xF000, 0x3000, fun w => .skipEqImm (fieldX w) (fieldKK w)⟩,
   ⟨0xF000, 0x4000, fun w => .skipNeImm (fieldX w) (fieldKK w)⟩,
   ⟨0xF00F, 0x5000, fun w => .skipEqReg (fieldX w) (fieldY w)⟩,
   ⟨0xF000, 0x6000, fun w => .setImm (fieldX w) (fieldKK w)⟩,
   ⟨0xF000, 0x7000, fun w => .addImm (fieldX w) (fieldKK w)⟩]

/-- Rows 10 to 18 of R84, the class-8 family (R86). -/
def tableRowsClass8 : List TableRow :=
  [⟨0xF00F, 0x8000, fun w => .copy (fieldX w) (fieldY w)⟩, ⟨0xF00F, 0x8001, fun w => .or (fieldX w) (fieldY w)⟩,
   ⟨0xF00F, 0x8002, fun w => .and (fieldX w) (fieldY w)⟩, ⟨0xF00F, 0x8003, fun w => .xor (fieldX w) (fieldY w)⟩,
   ⟨0xF00F, 0x8004, fun w => .addCarry (fieldX w) (fieldY w)⟩,
   ⟨0xF00F, 0x8005, fun w => .subBorrow (fieldX w) (fieldY w)⟩,
   ⟨0xF00F, 0x8006, fun w => .shiftRight (fieldX w) (fieldY w)⟩,
   ⟨0xF00F, 0x8007, fun w => .subnBorrow (fieldX w) (fieldY w)⟩,
   ⟨0xF00F, 0x800E, fun w => .shiftLeft (fieldX w) (fieldY w)⟩]

/-- Rows 19 to 27 of R84. -/
def tableRowsHigh : List TableRow :=
  [⟨0xF00F, 0x9000, fun w => .skipNeReg (fieldX w) (fieldY w)⟩, ⟨0xF000, 0xA000, fun w => .setIndex (fieldNNN w)⟩,
   ⟨0xF000, 0xB000, fun w => .jumpAddV0 (fieldNNN w)⟩, ⟨0xF000, 0xC000, fun w => .random (fieldX w) (fieldKK w)⟩,
   ⟨0xF000, 0xD000, fun w => .draw (fieldX w) (fieldY w) (fieldN w)⟩,
   ⟨0xF0FF, 0xF01E, fun w => .addToIndex (fieldX w)⟩, ⟨0xF0FF, 0xF033, fun w => .storeBCD (fieldX w)⟩,
   ⟨0xF0FF, 0xF055, fun w => .storeRegs (fieldX w)⟩, ⟨0xF0FF, 0xF065, fun w => .loadRegs (fieldX w)⟩]

/-- Rows 1 to 27 of R84; row 28, Unknown, is what `decodeBy` answers where none of them matches. -/
def opcodeTable : List TableRow := tableRowsLow ++ tableRowsClass8 ++ tableRowsHigh

/-- Decode by trying rows in the order given, with Unknown tried last (R84, R85). -/
def decodeBy (rows : List TableRow) (w : Word) : Instr :=
  match rows.find? (TableRow.hit w) with
  | some r => r.op w
  | none => .unknown

/-- The host's question: the instruction whose bits are `w`, bit 0 the least significant bit of the word. A word is two bytes,
the high byte at the lower address (R60), and bits above `nbits` are 0. -/
def decodeTableWord (nbits w : Nat) : Option Instr :=
  match decodeBytes (wordBytes (BitVec.ofNat 16 (w % 2 ^ nbits))) with
  | .ok (i, _) => some i
  | .error _ => none

end Sys2Proof
end

