-- ==== Sys2Proof/Machine/State.lean ====
section
/-! DEFINITION. The state of the block: the tuple of spec/10_state.md R33, the parameter `STACK_DEPTH` that the spec hands to
the model as an argument (R8, D5), and the model's own counter of random draws (R125, D18). All of it is plain data. -/

namespace Sys2Proof.Machine

/-- The faults of spec/60_exceptions.md R270. A fault is recorded in `State.run` by the step that raises it (R118, R274),
which answers a next state; `step` then answers the recorded fault from every `Faulted` state (R119, R275). That stop is the
spec's own: it is safe. -/
inductive Fault where
  /-- Code 1: a memory access above 0xFFF, at the first such address (R271). Raised by a fetch, by Draw, StoreBCD, StoreRegs and
  LoadRegs. Safe: the spec says the run is aborted. -/
  | memoryOutOfBounds (addr : Nat)
  /-- Code 2: Return with an empty call stack (R272). Raised by Return. Safe: the spec says the run is aborted. -/
  | stackUnderflow
  /-- Code 3: Call with the call stack full (R273), with the return address that could not be pushed. Raised by Call, and only
  where `stackDepth` is finite. Safe: the spec says the run is aborted. -/
  | stackOverflow (ret : Addr)
  deriving DecidableEq, Repr

/-- The refusals. No meaning of this model refuses: every row of the opcode table has its effect. -/
inductive Refusal where
  /-- An instruction without a meaning yet; raised only by a refused arm of `exec`, and none is left. Safe: the model stops. -/
  | notModelled (mnemonic : String)
  deriving DecidableEq, Repr

/-- The run state (R30). -/
inductive RunState where
  | running
  | faulted (reason : Fault)
  deriving DecidableEq, Repr

/-- Memory as (address, byte) pairs in the canonical form of `Memory.wf` (Machine/Memory.lean): addresses strictly rising, and
no entry equal to what an unlisted address reads as, its reset contents. -/
abbrev Memory := List Host.Cell

/-- The display: 32 rows of 64 one-bit pixels, row-major (R28). -/
abbrev Display := Vector (Vector Bool 64) 32

/-- The state between steps (R33). -/
structure State where
  /-- the general registers V0..VF (R20) -/
  v : Vector Byte 16
  /-- the index register `I` (R23) -/
  i : Addr
  /-- the program counter (R24) -/
  pc : Addr
  /-- the call stack, oldest entry first; its depth counter is its length (R25, R26) -/
  stack : List Addr
  /-- the delay timer `DT` (R27) -/
  dt : Byte
  /-- the 4096 bytes of memory (R29) -/
  mem : Memory
  /-- the display (R28) -/
  disp : Display
  /-- running, or the fault that ended the run (R30) -/
  run : RunState
  /-- the parameter `STACK_DEPTH`, `none` for unbounded (R8, D5); nothing the machine does changes it (log entry 2) -/
  stackDepth : Option Nat
  /-- the model's own: how many random draws have been taken, the index of the next one (D18; log entry 1) -/
  draws : Nat
  deriving DecidableEq, Repr

/-- The reset state (R34, R300): PC at 0x200, the display clear, memory at its reset contents (nothing listed), every register
and the timer 0, the stack empty, running. `stackDepth` is unbounded, the source's reading (D5; log entry 2). -/
def State.reset : State where
  v := Vector.replicate 16 0#8
  i := 0#16
  pc := Config.resetVector
  stack := []
  dt := 0#8
  mem := []
  disp := Vector.replicate 32 (Vector.replicate 64 false)
  run := .running
  stackDepth := none
  draws := 0

end Sys2Proof.Machine
end

