-- ==== Sys2Proof/Machine/Memory.lean ====
section
/-! DEFINITION. The memory of spec/20_memory.md over its canonical list: its reset contents, the read and write of one byte
with the out-of-bounds fault, accesses of several bytes in ascending order, and the instruction fetch. -/

namespace Sys2Proof.Machine

/-- `FONT_BASE`, the address of the glyph table (R56; the spec's decision D2; log entry 4). -/
def fontBase : Nat := 0x050

/-- `GLYPHS`, the 80 bytes of R55: glyph `g` is bytes `5 g .. 5 g + 4`, top row first. PRESUMED by the spec itself from general
knowledge (D3; log entry 5). -/
def glyphs : List Byte :=
  [0xF0, 0x90, 0x90, 0x90, 0xF0] ++ [0x20, 0x60, 0x20, 0x20, 0x70] ++
  [0xF0, 0x10, 0xF0, 0x80, 0xF0] ++ [0xF0, 0x10, 0xF0, 0x10, 0xF0] ++
  [0x90, 0x90, 0xF0, 0x10, 0x10] ++ [0xF0, 0x80, 0xF0, 0x10, 0xF0] ++
  [0xF0, 0x80, 0xF0, 0x90, 0xF0] ++ [0xF0, 0x10, 0x20, 0x40, 0x40] ++
  [0xF0, 0x90, 0xF0, 0x90, 0xF0] ++ [0xF0, 0x90, 0xF0, 0x10, 0xF0] ++
  [0xF0, 0x90, 0xF0, 0x90, 0x90] ++ [0xE0, 0x90, 0xE0, 0x90, 0xE0] ++
  [0xF0, 0x80, 0x80, 0x80, 0xF0] ++ [0xE0, 0x90, 0x90, 0x90, 0xE0] ++
  [0xF0, 0x80, 0xF0, 0x80, 0xF0] ++ [0xF0, 0x80, 0xF0, 0x80, 0x80]

/-- What an unlisted address reads as: the byte it holds after reset (R34, R300), a glyph byte in the glyph table and 0x00
elsewhere (log entry 3). -/
def resetByte (a : Nat) : Byte :=
  if fontBase ≤ a ∧ a < fontBase + 80 then glyphs.getD (a - fontBase) 0#8 else 0#8

/-- `mem[a]`, for an address that exists. -/
def Memory.peek : Memory → Nat → Byte
  | [], a => resetByte a
  | (k, b) :: m, a => if k = a then b else Memory.peek m a

/-- List the byte `b` at `a`, in place. -/
def Memory.list : Memory → Nat → Byte → Memory
  | [], a, b => [(a, b)]
  | (k, c) :: m, a, b =>
    if a < k then (a, b) :: (k, c) :: m
    else if a = k then (a, b) :: m
    else (k, c) :: Memory.list m a b

/-- Remove the entry of `a`, if there is one. -/
def Memory.unlist : Memory → Nat → Memory
  | [], _ => []
  | (k, c) :: m, a => if k = a then m else (k, c) :: Memory.unlist m a

/-- `mem[a] <- b`, keeping the canonical form: the reset contents of an address are not listed. -/
def Memory.poke (m : Memory) (a : Nat) (b : Byte) : Memory :=
  if b = resetByte a then m.unlist a else m.list a b

/-- The canonical form: addresses strictly rising and below 0x1000, and no entry equal to the reset contents. -/
abbrev Memory.wf (m : Memory) : Prop :=
  m.Pairwise (fun p q => p.1 < q.1) ∧ ∀ e ∈ m, e.1 < Config.memSize ∧ e.2 ≠ resetByte e.1

/-- `MemRead(addr, 1)` (R52): the fault above 0xFFF, else the byte. -/
def Memory.readByte (m : Memory) (a : Nat) : Except Fault Byte :=
  if a < Config.memSize then .ok (m.peek a) else .error (.memoryOutOfBounds a)

/-- `MemWrite(addr, 1, v)` (R53): the fault above 0xFFF, else the new memory. Nothing protects an address (R54, R57). -/
def Memory.writeByte (m : Memory) (a : Nat) (b : Byte) : Except Fault Memory :=
  if a < Config.memSize then .ok (m.poke a b) else .error (.memoryOutOfBounds a)

/-- The `n` bytes at `base`, `base + 1`, .. in ascending order, by exact sums; the first address above 0xFFF is the one
reported (R62, R63, R64, R276). -/
def Memory.readBytes (m : Memory) (base : Nat) : Nat → Except Fault (List Byte)
  | 0 => .ok []
  | n + 1 =>
    match m.readByte base with
    | .error f => .error f
    | .ok b =>
      match Memory.readBytes m (base + 1) n with
      | .error f => .error f
      | .ok bs => .ok (b :: bs)

/-- Write the bytes at `base`, `base + 1`, .. in ascending order. A fault leaves no new memory, so none of the writes is
committed (R63, R118). -/
def Memory.writeBytes (m : Memory) (base : Nat) : List Byte → Except Fault Memory
  | [] => .ok m
  | b :: bs =>
    match m.writeByte base b with
    | .error f => .error f
    | .ok m' => Memory.writeBytes m' (base + 1) bs

/-- `Fetch16(a)` (R60): the byte at `a` is the high byte, the byte at the exact sum `a + 1` the low byte. -/
def Memory.fetch16 (m : Memory) (a : Nat) : Except Fault Word :=
  match m.readByte a with
  | .error f => .error f
  | .ok hi =>
    match m.readByte (a + 1) with
    | .error f => .error f
    | .ok lo => .ok (bytesWord hi lo)

end Sys2Proof.Machine
end

