-- ==== Sys2Proof/Machine/Operands.lean ====
section
/-! DEFINITION. The operand forms of spec/30_encoding.md R81, R82 and spec/44_index_memory.md R245: a register named by `x` or
`y`, the immediates zero-extended where they meet a wider register, and the effective address `I + k`. -/

namespace Sys2Proof.Machine

/-- `V[r]`, for any register, VF included (R20, R21). -/
def State.reg (s : State) (r : Reg) : Byte := s.v[r]

/-- `zext_16(nnn)` (R82). -/
def zextNNN (nnn : BitVec 12) : Addr := nnn.zeroExtend 16

/-- `zext_16(V[r])` (R10). -/
def zextByte (b : Byte) : Addr := b.zeroExtend 16

/-- The base address of every data access: `I` as an exact number (R62, R245). Access `k` is at `s.base + k`. -/
def State.base (s : State) : Nat := s.i.toNat

/-- The registers `V[0] .. V[x]`, in order: the range of StoreRegs, all read at the start (R117, R243). -/
def State.regsUpTo (s : State) (x : Reg) : List Byte := s.v.toList.take (x.val + 1)

/-- The three decimal digits of a byte, most significant first (R242; the order is the spec's decision D14). -/
def bcdDigits (b : Byte) : List Byte :=
  [BitVec.ofNat 8 (b.toNat / 100), BitVec.ofNat 8 (b.toNat / 10 % 10), BitVec.ofNat 8 (b.toNat % 10)]

end Sys2Proof.Machine
end

