-- ==== Sys2Proof/Machine/Ops.lean ====
section
/-! DEFINITION. The named operations over the state: the write of each register, the stack, the skip, the display primitives of
spec/43_display.md, and taking a fault (spec/60_exceptions.md R274), which every faulting instruction shares. There is no
return from a fault (R275); only the host's reset (Machine/HostOps.lean) leaves one. -/

namespace Sys2Proof.Machine

/-- `V[r] <- b` (R11). No register is hard-wired (R20). -/
def State.setReg (s : State) (r : Reg) (b : Byte) : State := { s with v := s.v.set r b }

/-- `VF <- f`, the write of a flag, which comes after the write of the result (R22, R171; D8). -/
def State.setFlag (s : State) (f : Byte) : State := s.setReg vf f

/-- `V[k] <- t[k]` for every `k` below the length of `t` (R244). -/
def State.setRegs (s : State) (t : List Byte) : State := { s with v := s.v.mapIdx fun k old => t.getD k old }

/-- `I <- a` (R23). -/
def State.setIndex (s : State) (a : Addr) : State := { s with i := a }

/-- `PC <- a` (R24). -/
def State.setPc (s : State) (a : Addr) : State := { s with pc := a }

/-- The call stack replaced (R25). -/
def State.setStack (s : State) (st : List Addr) : State := { s with stack := st }

/-- Memory replaced. -/
def State.setMem (s : State) (m : Memory) : State := { s with mem := m }

/-- The display replaced. -/
def State.setDisp (s : State) (d : Display) : State := { s with disp := d }

/-- The delay timer written; only the host does so (R27). -/
def State.setDt (s : State) (b : Byte) : State := { s with dt := b }

/-- The run state written (R30). -/
def State.setRun (s : State) (r : RunState) : State := { s with run := r }

/-- One more random draw has been taken (D18). -/
def State.countDraw (s : State) : State := { s with draws := s.draws + 1 }

/-- The depth counter of the call stack, equal to its length at all times (R26). -/
def State.depth (s : State) : Nat := s.stack.length

/-- The stack is full: `|Stack| = STACK_DEPTH`, never where the depth is unbounded (R25). -/
def State.stackFull (s : State) : Bool := s.stackDepth == some s.depth

/-- `Push(a)` (R25): append, or raise the overflow fault with the value that could not be pushed (R146, R273). -/
def State.push (s : State) (a : Addr) : Except Fault State :=
  if s.stackFull then .error (.stackOverflow a) else .ok (s.setStack (s.stack ++ [a]))

/-- `PC <- Pop()` (R25, R148): the last entry appended, or the underflow fault (R272). -/
def State.popPc (s : State) : Except Fault State :=
  match s.stack.getLast? with
  | none => .error .stackUnderflow
  | some a => .ok ((s.setStack s.stack.dropLast).setPc a)

/-- `skip`: `PC <- PC +_16 2` (R140). -/
def State.skip (s : State) : State := s.setPc (s.pc + 2#16)

/-- Skip when the condition holds (R141 to R144). -/
def State.skipIf (s : State) (p : Bool) : State := if p then s.skip else s

/-- The advance of a fetch: `PC <- PC +_16 2`, before decode (R111). -/
def State.advance (s : State) : State := s.setPc (s.pc + 2#16)

/-- TAKING A FAULT (R118, R274): nothing is committed but `run <- Faulted(f)`. -/
def State.takeFault (s : State) (f : Fault) : State := s.setRun (.faulted f)

/-- The end of an instruction's effect: what it computed from `s`, or `s` with the fault it raised taken. -/
def State.settle (s : State) : Except Fault State → State
  | .ok t => t
  | .error f => s.takeFault f

/-- The outcome of an instruction that may raise a fault: always a next state. -/
def State.attempt (s : State) (r : Except Fault State) : Host.Outcome State Fault Refusal := .next (s.settle r)

/-- `Disp[c][r]` (R28). -/
def Display.pixel (d : Display) (c : Fin 64) (r : Fin 32) : Bool := d[r][c]

/-- `Disp[c][r] <- not Disp[c][r]` (R210). -/
def Display.toggle (d : Display) (c : Fin 64) (r : Fin 32) : Display := d.set r (d[r].set c (!d[r][c]))

/-- The cleared display (R211). -/
def Display.blank : Display := Vector.replicate 32 (Vector.replicate 64 false)

/-- The target column of sprite column `col`, `(cx + col) mod 64` (R210). -/
def targetCol (cx : Byte) (col : Nat) : Fin 64 := Fin.ofNat 64 (cx.toNat + col)

/-- The target row of sprite row `r`, `(cy + r) mod 32` (R210). -/
def targetRow (cy : Byte) (r : Nat) : Fin 32 := Fin.ofNat 32 (cy.toNat + r)

/-- One bit of the blit (R210): a 1 bit records a collision with a true cell and toggles the cell; a 0 bit does nothing. -/
def blitBit (cx cy row : Byte) (r : Nat) (acc : Display × Bool) (col : Nat) : Display × Bool :=
  if row.getLsbD (7 - col) then
    (acc.1.toggle (targetCol cx col) (targetRow cy r), acc.2 || acc.1.pixel (targetCol cx col) (targetRow cy r))
  else acc

/-- One row of the blit, its eight columns from the left, bit 7 first (R210). -/
def blitRow (cx cy row : Byte) (r : Nat) (acc : Display × Bool) : Display × Bool :=
  (List.range 8).foldl (blitBit cx cy row r) acc

/-- The rows of the blit from row number `r` down (R210). -/
def blitRows (cx cy : Byte) : Nat → List Byte → Display × Bool → Display × Bool
  | _, [], acc => acc
  | r, row :: rows, acc => blitRows cx cy (r + 1) rows (blitRow cx cy row r acc)

/-- `Blit(cx, cy, rows)` (R210): the new display and the collision. -/
def Display.blit (d : Display) (cx cy : Byte) (rows : List Byte) : Display × Bool := blitRows cx cy 0 rows (d, false)

/-- The 2048 pixels, row-major: element `r * 64 + c` is `Disp[c][r]` (R28, R123). -/
def Display.pixels (d : Display) : List Bool := (d.toList.map Vector.toList).flatten

/-- A word stored where the next fetch reads it. A program counter that no fetch can use is moved to the reset vector first. -/
def State.placeWord (s : State) (w : Word) : State :=
  let t := if s.pc.toNat + 1 < Config.memSize then s else s.setPc Config.resetVector
  (t.setMem ((t.mem.poke t.pc.toNat (highByte w)).poke (t.pc.toNat + 1) (lowByte w))).setRun .running

end Sys2Proof.Machine
end

