-- ==== Sys2Proof/Machine/Alu.lean ====
section
/-! DEFINITION. The register and ALU operations of spec/42_alu.md. Every operand is read from the state before the instruction
(R117), and where there is a flag it is written last (R171), so that it is the value VF ends with when `x = 0xF`. None of
them can fault. -/

namespace Sys2Proof.Machine

/-- SetImm: `V[x] <- kk` (R172). -/
def execSetImm (x : Reg) (kk : Byte) (s : State) : Host.Outcome State Fault Refusal := .next (s.setReg x kk)

/-- AddImm: `V[x] <- V[x] +_8 kk`, no flag (R173; VF unchanged is the spec's decision D10). -/
def execAddImm (x : Reg) (kk : Byte) (s : State) : Host.Outcome State Fault Refusal := .next (s.setReg x (s.reg x + kk))

/-- Random with the draw `r` of the step: `V[x] <- r & kk` (R125, R174). -/
def randomWith (r : Byte) (x : Reg) (kk : Byte) (s : State) : State := (s.setReg x (r &&& kk)).countDraw

/-- Random: the draw is the free byte numbered by the draws taken before it (R125, R174; D18). -/
def execRandom (x : Reg) (kk : Byte) (s : State) : Host.Outcome State Fault Refusal :=
  .next (randomWith (Config.randomByte s.draws) x kk s)

/-- Copy: `V[x] <- V[y]` (R175). -/
def execCopy (x y : Reg) (s : State) : Host.Outcome State Fault Refusal := .next (s.setReg x (s.reg y))

/-- Or: `V[x] <- V[x] | V[y]` (R176; VF unchanged is the spec's decision D9). -/
def execOr (x y : Reg) (s : State) : Host.Outcome State Fault Refusal := .next (s.setReg x (s.reg x ||| s.reg y))

/-- And: `V[x] <- V[x] & V[y]` (R177; D9). -/
def execAnd (x y : Reg) (s : State) : Host.Outcome State Fault Refusal := .next (s.setReg x (s.reg x &&& s.reg y))

/-- Xor: `V[x] <- V[x] ^ V[y]` (R178; D9). -/
def execXor (x y : Reg) (s : State) : Host.Outcome State Fault Refusal := .next (s.setReg x (s.reg x ^^^ s.reg y))

/-- The write of a result and then of its flag (R171; D8). -/
def State.setResult (s : State) (x : Reg) (result flag : Byte) : State := (s.setReg x result).setFlag flag

/-- AddCarry: the sum modulo 256 and the carry (R179). -/
def execAddCarry (x y : Reg) (s : State) : Host.Outcome State Fault Refusal :=
  .next (s.setResult x (s.reg x + s.reg y) (carryFlag (s.reg x) (s.reg y)))

/-- SubBorrow: `V[x] - V[y]` modulo 256 and not-borrow (R180). -/
def execSubBorrow (x y : Reg) (s : State) : Host.Outcome State Fault Refusal :=
  .next (s.setResult x (s.reg x - s.reg y) (notBorrowFlag (s.reg x) (s.reg y)))

/-- ShiftRight: the source is `V[y]`; the flag is its bit 0 (R181). -/
def execShiftRight (x y : Reg) (s : State) : Host.Outcome State Fault Refusal :=
  .next (s.setResult x (s.reg y >>> 1) (shiftOutLow (s.reg y)))

/-- SubnBorrow: `V[y] - V[x]` modulo 256 and not-borrow (R182). -/
def execSubnBorrow (x y : Reg) (s : State) : Host.Outcome State Fault Refusal :=
  .next (s.setResult x (s.reg y - s.reg x) (notBorrowFlag (s.reg y) (s.reg x)))

/-- ShiftLeft: the source is `V[y]`; the flag is its bit 7 (R183). -/
def execShiftLeft (x y : Reg) (s : State) : Host.Outcome State Fault Refusal :=
  .next (s.setResult x (s.reg y <<< 1) (shiftOutHigh (s.reg y)))

end Sys2Proof.Machine
end

