-- ==== Sys2Proof/Machine/ControlFlow.lean ====
section
/-! DEFINITION. The control transfers of spec/41_control_flow.md. `PC` is the value after the fetch advance (R24). -/

namespace Sys2Proof.Machine

/-- SkipEqImm: `if V[x] = kk then skip` (R141). -/
def execSkipEqImm (x : Reg) (kk : Byte) (s : State) : Host.Outcome State Fault Refusal := .next (s.skipIf (s.reg x == kk))

/-- SkipNeImm: `if V[x] != kk then skip` (R142). -/
def execSkipNeImm (x : Reg) (kk : Byte) (s : State) : Host.Outcome State Fault Refusal := .next (s.skipIf (s.reg x != kk))

/-- SkipEqReg: `if V[x] = V[y] then skip` (R143). -/
def execSkipEqReg (x y : Reg) (s : State) : Host.Outcome State Fault Refusal := .next (s.skipIf (s.reg x == s.reg y))

/-- SkipNeReg: `if V[x] != V[y] then skip` (R144). -/
def execSkipNeReg (x y : Reg) (s : State) : Host.Outcome State Fault Refusal := .next (s.skipIf (s.reg x != s.reg y))

/-- Jump: `PC <- zext_16(nnn)` (R145). -/
def execJump (nnn : BitVec 12) (s : State) : Host.Outcome State Fault Refusal := .next (s.setPc (zextNNN nnn))

/-- JumpAddV0: `PC <- zext_16(nnn) + zext_16(V[0])`; always V0 (R147). -/
def execJumpAddV0 (nnn : BitVec 12) (s : State) : Host.Outcome State Fault Refusal :=
  .next (s.setPc (zextNNN nnn + zextByte (s.reg 0)))

/-- Call: push `PC`, then jump; the overflow fault where the stack is full (R146, R273; D5). -/
def execCall (nnn : BitVec 12) (s : State) : Host.Outcome State Fault Refusal :=
  s.attempt ((s.push s.pc).map fun t => t.setPc (zextNNN nnn))

/-- Return: pop the stack into `PC`; the underflow fault where it is empty (R148, R272). -/
def execReturn (s : State) : Host.Outcome State Fault Refusal := s.attempt s.popPc

end Sys2Proof.Machine
end

