-- ==== Sys2Proof/Machine/Graphics.lean ====
section
/-! DEFINITION. The display operations of spec/43_display.md. -/

namespace Sys2Proof.Machine

/-- Clear: every pixel false; VF is not written (R211, R213). -/
def execClear (s : State) : Host.Outcome State Fault Refusal := .next (s.setDisp Display.blank)

/-- The blit of the sprite rows at `(V[x], V[y])`, the coordinates read before VF is written, and then the collision flag, which
is always written (R214; D12). -/
def State.drawRows (s : State) (x y : Reg) (rows : List Byte) : State :=
  (s.setDisp (s.disp.blit (s.reg x) (s.reg y) rows).1).setFlag
    (collisionFlag (s.disp.blit (s.reg x) (s.reg y) rows).2)

/-- Draw: the `n` sprite bytes at `I`, or the out-of-bounds fault of the first row above 0xFFF, which leaves the display and VF
as they were (R214; D11). -/
def execDraw (x y : Reg) (n : Nat) (s : State) : Host.Outcome State Fault Refusal :=
  s.attempt ((s.mem.readBytes s.base n).map fun rows => s.drawRows x y rows)

end Sys2Proof.Machine
end

