-- ==== Sys2Proof/Machine/IndexMemory.lean ====
section
/-! DEFINITION. The index register, the loads and stores through it, and Unknown (spec/44_index_memory.md). No access changes
`I` (R245; D13). -/

namespace Sys2Proof.Machine

/-- SetIndex: `I <- zext_16(nnn)` (R240). -/
def execSetIndex (nnn : BitVec 12) (s : State) : Host.Outcome State Fault Refusal := .next (s.setIndex (zextNNN nnn))

/-- AddToIndex: `I <- I +_16 zext_16(V[x])`, no flag (R241; D10). -/
def execAddToIndex (x : Reg) (s : State) : Host.Outcome State Fault Refusal :=
  .next (s.setIndex (s.i + zextByte (s.reg x)))

/-- Bytes stored from `I` up, all of them or, with the out-of-bounds fault, none (R118, R242, R243). -/
def State.storeAtIndex (s : State) (bs : List Byte) : Except Fault State := (s.mem.writeBytes s.base bs).map s.setMem

/-- StoreBCD: the decimal digits of `V[x]` at `I`, `I + 1`, `I + 2` (R242; D14). -/
def execStoreBCD (x : Reg) (s : State) : Host.Outcome State Fault Refusal :=
  s.attempt (s.storeAtIndex (bcdDigits (s.reg x)))

/-- StoreRegs: `V[0] .. V[x]` at `I .. I + x` (R243). -/
def execStoreRegs (x : Reg) (s : State) : Host.Outcome State Fault Refusal := s.attempt (s.storeAtIndex (s.regsUpTo x))

/-- LoadRegs: `V[0] .. V[x]` from `I .. I + x`; no register changes where one of the bytes is out of bounds (R244). -/
def execLoadRegs (x : Reg) (s : State) : Host.Outcome State Fault Refusal :=
  s.attempt ((s.mem.readBytes s.base (x.val + 1)).map s.setRegs)

/-- Unknown: nothing (R115, R246). -/
def execUnknown (s : State) : Host.Outcome State Fault Refusal := .next s

end Sys2Proof.Machine
end

