-- ==== Sys2Proof/Machine/Sequencer.lean ====
section
/-! DEFINITION. The fetch-decode-execute sequence of spec/40_sequencer.md R110, over whatever executes an operation: `exec`, or
`exec` with the random draw the host hands in (Machine/HostOps.lean). -/

namespace Sys2Proof.Machine

/-- The state after a step from `s` whose execution reached `t`: `t`, or where `t` has taken a fault, `s` with that fault
taken, so that not even the fetch advance is committed (R118). -/
def State.afterExec (s t : State) : State :=
  match t.run with
  | .running => t
  | .faulted f => s.takeFault f

/-- The end of a step from `s` whose execution gave `o` (R110, R118). -/
def State.commit (s : State) (o : Host.Outcome State Fault Refusal) : Host.Outcome State Fault Refusal :=
  match o with
  | .next t => .next (s.afterExec t)
  | .fault f => .fault f
  | .refused r => .refused r

/-- The word at `PC` (R111, R112). -/
def State.fetch (s : State) : Except Fault Word := s.mem.fetch16 s.pc.toNat

/-- One `step()` (R110, R111, R118, R119): from `Faulted(f)` the machine answers `f` and changes nothing; else fetch, advance,
decode, execute, with a fault of the fetch or of the execution taken over the state before the step. -/
def runSequence (execute : Instr → State → Host.Outcome State Fault Refusal) (s : State) : Host.Outcome State Fault Refusal :=
  match s.run with
  | .faulted f => .fault f
  | .running =>
    match s.fetch with
    | .error f => .next (s.takeFault f)
    | .ok w => s.commit (execute (decode w) s.advance)

end Sys2Proof.Machine
end

