-- ==== Sys2Proof/Machine/Step.lean ====
section
/-! DEFINITION. One step of the machine, and the host's way to place an instruction. -/

namespace Sys2Proof.Machine

/-- `step()` (spec/40_sequencer.md R110), the random draw being the free byte (R125). -/
def step (s : State) : Host.Outcome State Fault Refusal := runSequence exec s

/-- `s` with the word `w` where `step` fetches next, its high byte at `PC` and its low byte at `PC + 1` (R60), and running. -/
def State.withFetchWord (s : State) (nbits w : Nat) : State := s.placeWord (BitVec.ofNat 16 (w % 2 ^ nbits))

end Sys2Proof.Machine
end

