-- ==== Sys2Proof/Machine/HostOps.lean ====
section
/-! DEFINITION. The host interface of spec/40_sequencer.md R120 to R126: the operations the host calls, one at a time and only
between steps. `step` of Machine/Step.lean is the host's `step(r)` for a draw `r` that nothing constrains. -/

namespace Sys2Proof.Machine

/-- What an operation answers to the host. -/
inductive Reply where
  /-- nothing -/
  | done
  /-- `Ok` (R110) -/
  | ok
  /-- `Faulted(F)` (R110, R119) -/
  | faulted (f : Fault)
  /-- a host error, which is no fault of the block (R121) -/
  | hostError (f : Fault)
  /-- the 2048 pixels of `snapshot()` (R123) -/
  | pixels (ps : List Bool)
  /-- what `inspect()` returns (R120): `V`, `I`, `PC`, `Stack`, `DT`, the 4096 bytes of memory, `run` -/
  | inspected (v : List Byte) (i pc : Addr) (stack : List Addr) (dt : Byte) (mem : List Byte) (run : RunState)
  deriving DecidableEq, Repr

/-- The operations of R120. -/
inductive HostOp where
  | reset
  | load (b : List Byte)
  | setPC (a : Addr)
  | step (r : Byte)
  | execute (op : Instr) (r : Byte)
  | snapshot
  | tickDT
  | inspect
  deriving DecidableEq, Repr

/-- `Execute(op)` with `Rnd() = r` (R124, R125): only Random reads the draw. -/
def execWith (r : Byte) (i : Instr) (s : State) : Host.Outcome State Fault Refusal :=
  match i with
  | .random x kk => .next (randomWith r x kk s)
  | i => exec i s

/-- `step(r)` as a step of the machine (R110, R125). -/
def stepWith (r : Byte) (s : State) : Host.Outcome State Fault Refusal := runSequence (execWith r) s

/-- `execute(op, r)` (R124): no fetch and no advance. In a `Faulted` state nothing runs (R275; DEDUCED, log entry 7). -/
def executeWith (r : Byte) (op : Instr) (s : State) : Host.Outcome State Fault Refusal :=
  match s.run with
  | .running => execWith r op s
  | .faulted f => .fault f

/-- The fault codes of R270, the spec's own (D35). -/
def Fault.code : Fault → Nat
  | .memoryOutOfBounds _ => 1
  | .stackUnderflow => 2
  | .stackOverflow _ => 3

/-- What a step that ended in this state returns: `Ok`, or the fault it took (R110). That `execute` returns the same is the
model's DESIGN CHOICE (log entry 22). -/
def State.status (s : State) : Reply :=
  match s.run with
  | .running => .ok
  | .faulted f => .faulted f

/-- The state and the reply after a step or an execution from `s`; a `Faulted` state is left as it is (R119). The reply of a step
is R110's; the spec gives `execute` no reply (R120, R124), and that it replies as a step does is the model's DESIGN CHOICE (log
entry 22; in a `Faulted` state log entry 7). -/
def State.answered (s : State) (o : Host.Outcome State Fault Refusal) : State × Reply :=
  match o with
  | .next t => (t, t.status)
  | .fault f => (s, .faulted f)
  | .refused _ => (s, s.status)

/-- `reset()` (R300): the reset state, for this machine's stack limit. The draws taken stay counted, so that a draw is never
repeated (log entries 1 and 2). -/
def State.hostReset (s : State) : State := { State.reset with stackDepth := s.stackDepth, draws := s.draws }

/-- `load(b)` (R121): the bytes from 0x200 up and nothing else, or, for an image that does not fit, the host error. -/
def State.load (s : State) (b : List Byte) : Except Fault State :=
  if imageWellFormed b then (s.mem.writeBytes Config.loadBase b).map s.setMem
  else .error (.memoryOutOfBounds Config.memSize)

/-- `tickDT()` (R126): `DT <- DT - 1 if DT > 0`, PRESUMED there from general knowledge (D23; log entry 6). -/
def State.tickDT (s : State) : State := if s.dt = 0#8 then s else s.setDt (s.dt - 1#8)

/-- What `inspect()` returns (R120). -/
def State.inspection (s : State) : Reply :=
  .inspected s.v.toList s.i s.pc s.stack s.dt ((List.range Config.memSize).map s.mem.peek) s.run

/-- One host operation: the state after it and its reply (R120). -/
def HostOp.apply (op : HostOp) (s : State) : State × Reply :=
  match op with
  | .reset => (s.hostReset, .done)
  | .load b =>
    match s.load b with
    | .ok t => (t, .done)
    | .error f => (s, .hostError f)
  | .setPC a => (s.setPc a, .done)
  | .step r => s.answered (stepWith r s)
  | .execute i r => s.answered (executeWith r i s)
  | .snapshot => (s, .pixels s.disp.pixels)
  | .tickDT => (s.tickDT, .done)
  | .inspect => (s, s.inspection)

end Sys2Proof.Machine
end

