-- ==== Sys2Proof/Safety.lean ====
section
/-! DEFINITION. The terms in which claims are stated: what a part of the state being unchanged means, the sprite of a Draw, the
classes of instructions that the spec's whole-machine rules speak of, and the invariant of the machine. -/

namespace Sys2Proof.Safety

open Sys2Proof.Machine

/-- The parts of the state (spec/10_state.md R33), and the model's two own fields. -/
inductive Part where
  | regs | index | pc | stack | timer | memory | display | run | stackDepth | draws
  deriving DecidableEq, Repr

/-- A part is the same in `t` as in `s`: registers, bytes and pixels each through the read of one. -/
def unchanged (s t : State) : Part → Prop
  | .regs => ∀ k : Reg, t.reg k = s.reg k
  | .index => t.i = s.i
  | .pc => t.pc = s.pc
  | .stack => t.stack = s.stack
  | .timer => t.dt = s.dt
  | .memory => ∀ a, t.mem.readByte a = s.mem.readByte a
  | .display => ∀ c r, t.disp.pixel c r = s.disp.pixel c r
  | .run => t.run = s.run
  | .stackDepth => t.stackDepth = s.stackDepth
  | .draws => t.draws = s.draws

/-- THE FRAME: every part but those listed is unchanged. -/
def onlyChanges (ps : List Part) (s t : State) : Prop := ∀ p, p ∉ ps → unchanged s t p

/-- Every register but those listed is unchanged. -/
def regsUnchangedBut (rs : List Reg) (s t : State) : Prop := ∀ k, k ∉ rs → t.reg k = s.reg k

/-- Every byte of memory outside the `n` bytes at `base` reads as before. -/
def memUnchangedOutside (base n : Nat) (s t : State) : Prop :=
  ∀ a, (a < base ∨ base + n ≤ a) → t.mem.readByte a = s.mem.readByte a

/-- The fault `f` was taken and nothing else happened (R118, R274). -/
def faultedOnly (f : Fault) (s t : State) : Prop := t.run = .faulted f ∧ onlyChanges [.run] s t

/-- A host operation that ran `o` from the running state `s` left a state and a reply: the next state with `Ok`, or `s` with a fault
taken and that fault (R110, R118). -/
def ranAndReplied (s : State) (o : Host.Outcome State Fault Refusal) (answer : State × Reply) : Prop :=
  ∃ t, o = .next t ∧
    ((t.run = .running ∧ answer = (t, .ok)) ∨ ∃ f, t = { s with run := .faulted f } ∧ answer = (t, .faulted f))

/-- From a running state whose `PC` is above 0xFFE, the next step faults in its fetch, at 0x1000 or at `PC` (R112). -/
def nextFetchFaults (t : State) : Prop :=
  t.run = .running → t.pc.toNat > 0xFFE →
    ∃ u, step t = .next u ∧ u.run = .faulted (.memoryOutOfBounds (max t.pc.toNat 0x1000))

/-- The sprite rows of a Draw of `n` rows: the bytes at `I + r` (R214). -/
def spriteRows (s : State) (n : Nat) : List Byte := (List.range n).map fun r => s.mem.peek (s.base + r)

/-- A 1 bit of the sprite at `(cx, cy)` falls on the cell `(c, r)`: bit `7 - col` of row `row`, at
`((cx + col) mod 64, (cy + row) mod 32)` (R210). -/
def spriteCovers (cx cy : Byte) (rows : List Byte) (c : Fin 64) (r : Fin 32) : Prop :=
  ∃ row col, ∃ h : row < rows.length, col < 8 ∧ rows[row].getLsbD (7 - col) = true ∧
    c.val = (cx.toNat + col) % 64 ∧ r.val = (cy.toNat + row) % 32

/-- The instructions that write VF as a flag (R22). -/
def writesFlag : Instr → Bool
  | .addCarry _ _ | .subBorrow _ _ | .shiftRight _ _ | .subnBorrow _ _ | .shiftLeft _ _ | .draw _ _ _ => true
  | .clear | .ret | .jump _ | .call _ | .skipEqImm _ _ | .skipNeImm _ _ | .skipEqReg _ _ | .skipNeReg _ _ => false
  | .setImm _ _ | .addImm _ _ | .copy _ _ | .or _ _ | .and _ _ | .xor _ _ | .random _ _ => false
  | .setIndex _ | .jumpAddV0 _ | .addToIndex _ | .storeBCD _ | .storeRegs _ | .loadRegs _ | .unknown => false

/-- The registers an instruction writes as its destination: `V[x]`, and for LoadRegs V0..Vx (R171 to R183, R244). -/
def destinations : Instr → List Reg
  | .setImm x _ | .addImm x _ | .random x _ => [x]
  | .copy x _ | .or x _ | .and x _ | .xor x _ => [x]
  | .addCarry x _ | .subBorrow x _ | .shiftRight x _ | .subnBorrow x _ | .shiftLeft x _ => [x]
  | .loadRegs x => (List.finRange 16).filter (· ≤ x)
  | .clear | .ret | .jump _ | .call _ | .skipEqImm _ _ | .skipNeImm _ _ | .skipEqReg _ _ | .skipNeReg _ _ => []
  | .setIndex _ | .jumpAddV0 _ | .draw _ _ _ | .addToIndex _ | .storeBCD _ | .storeRegs _ | .unknown => []

/-- The control transfers: the instructions that may write `PC` (R24, spec/41_control_flow.md). -/
def transfersControl : Instr → Bool
  | .ret | .jump _ | .call _ | .skipEqImm _ _ | .skipNeImm _ _ | .skipEqReg _ _ | .skipNeReg _ _ | .jumpAddV0 _ => true
  | .clear | .setImm _ _ | .addImm _ _ | .copy _ _ | .or _ _ | .and _ _ | .xor _ _ | .random _ _ => false
  | .addCarry _ _ | .subBorrow _ _ | .shiftRight _ _ | .subnBorrow _ _ | .shiftLeft _ _ | .draw _ _ _ => false
  | .setIndex _ | .addToIndex _ | .storeBCD _ | .storeRegs _ | .loadRegs _ | .unknown => false

/-- The parts other than the registers and `PC` that an instruction may write when it completes (R23, R25, R27, R28). -/
def writableParts : Instr → List Part
  | .clear | .draw _ _ _ => [.display]
  | .ret | .call _ => [.stack]
  | .setIndex _ | .addToIndex _ => [.index]
  | .storeBCD _ | .storeRegs _ => [.memory]
  | .random _ _ => [.draws]
  | .jump _ | .skipEqImm _ _ | .skipNeImm _ _ | .skipEqReg _ _ | .skipNeReg _ _ | .jumpAddV0 _ => []
  | .setImm _ _ | .addImm _ _ | .copy _ _ | .or _ _ | .and _ _ | .xor _ _ | .loadRegs _ | .unknown => []
  | .addCarry _ _ | .subBorrow _ _ | .shiftRight _ _ | .subnBorrow _ _ | .shiftLeft _ _ => []

/-- The instructions that access memory through `I` (R245). -/
def accessesMemory : Instr → Bool
  | .draw _ _ _ | .storeBCD _ | .storeRegs _ | .loadRegs _ => true
  | .clear | .ret | .jump _ | .call _ | .skipEqImm _ _ | .skipNeImm _ _ | .skipEqReg _ _ | .skipNeReg _ _ => false
  | .setImm _ _ | .addImm _ _ | .copy _ _ | .or _ _ | .and _ _ | .xor _ _ | .random _ _ => false
  | .addCarry _ _ | .subBorrow _ _ | .shiftRight _ _ | .subnBorrow _ _ | .shiftLeft _ _ => false
  | .setIndex _ | .jumpAddV0 _ | .addToIndex _ | .unknown => false

/-- A recorded fault is one the machine can have raised in this state: an address in 0x1000..0xFFFF (R271), an underflow with
the stack empty (R272), an overflow with the stack full (R273). -/
def recordedFaultOk (s : State) : Prop :=
  match s.run with
  | .running => True
  | .faulted (.memoryOutOfBounds a) => 0x1000 ≤ a ∧ a ≤ 0xFFFF
  | .faulted .stackUnderflow => s.stack = []
  | .faulted (.stackOverflow _) => s.stackDepth = some s.stack.length

/-- The call stack is no deeper than its limit (R25). -/
def stackFits (s : State) : Prop := ∀ d, s.stackDepth = some d → s.stack.length ≤ d

/-- THE INVARIANT: memory is canonical and within 0x000..0xFFF, the stack fits, a recorded fault is a possible one. -/
def Inv (s : State) : Prop := s.mem.wf ∧ stackFits s ∧ recordedFaultOk s

end Sys2Proof.Safety
end

