-- ==== Sys2Proof/Certificates/Slice0/Obligations.lean ====
section
/-! DEFINITION. The statements for the provers, file by file of spec/. Each docstring names the rule it formalises and, where a
clause rests on one of the spec's own decisions (spec/92_eei_decisions.md D<n>) or on a choice of the model, that. -/

open Sys2Proof Sys2Proof.Machine Sys2Proof.Safety

/-! ## Encoding (spec/30_encoding.md) -/

/-- Words of every family, from the test vectors V-DEC of spec/95_test_vectors.md section 2.1, decode as the table says. -/
def Obligations.TableWordsDecode : Prop :=
  decode 0x00E0 = .clear ∧ decode 0x00EE = .ret ∧ decode 0x1ABC = .jump 0xABC ∧ decode 0x2FFF = .call 0xFFF ∧
  decode 0x3A7F = .skipEqImm 10 0x7F ∧ decode 0x5120 = .skipEqReg 1 2 ∧ decode 0x8AB0 = .copy 10 11 ∧
  decode 0x8ABE = .shiftLeft 10 11 ∧ decode 0x9120 = .skipNeReg 1 2 ∧ decode 0xB123 = .jumpAddV0 0x123 ∧
  decode 0xDFEF = .draw 15 14 15 ∧ decode 0xF01E = .addToIndex 0 ∧ decode 0xFF65 = .loadRegs 15 ∧
  decode 0xF133 = .storeBCD 1 ∧ decode 0x0000 = .unknown ∧ decode 0x5121 = .unknown ∧ decode 0x8AB8 = .unknown ∧
  decode 0xE09E = .unknown ∧ decode 0xF029 = .unknown

/-- Decode of encode is the instruction, for every well-formed instruction, as a word and as bytes followed by any others: no bit
of an encoding is dropped, and exactly two bytes are taken (formats of section 2, table of section 3). -/
def Obligations.DecodeInvertsEncode : Prop :=
  ∀ i : Instr, i.wellFormed = true →
    decode (encode i) = i ∧ ∀ rest, decodeBytes (encodeBytes i ++ rest) = .ok (i, rest)

/-- Every word is either Unknown or the one encoding of the well-formed instruction it decodes to. -/
def Obligations.EncodeInvertsDecode : Prop :=
  ∀ w : Word, (decode w).wellFormed = true ∧ (decode w ≠ .unknown → encode (decode w) = w)

/-- R84 with R85: the decoder gives the operation of the row whose mask and match fit, whatever the order in which rows 1 to 27
are tried, with Unknown tried last. The class-8 rows are the spec's decision D7 (log entry 9). -/
def Obligations.DecodeIsTheTableInAnyOrder : Prop :=
  ∀ rows : List TableRow, rows.Perm opcodeTable → ∀ w : Word, decodeBy rows w = decode w

/-- R88: the words that decode to Unknown are exactly those of its table, class by class (decision D19; class 8 by D7). -/
def Obligations.UnknownWordsExactly : Prop :=
  ∀ w : Word, decode w = .unknown ↔
    (fieldC w = 0x0 ∧ w ≠ 0x00E0 ∧ w ≠ 0x00EE) ∨ (fieldC w = 0x5 ∧ fieldD w ≠ 0) ∨
    (fieldC w = 0x8 ∧ fieldD w ∈ [0x8, 0x9, 0xA, 0xB, 0xC, 0xD, 0xF]) ∨ (fieldC w = 0x9 ∧ fieldD w ≠ 0) ∨
    fieldC w = 0xE ∨ (fieldC w = 0xF ∧ fieldKK w ∉ [0x1E, 0x33, 0x55, 0x65])

/-! ## Memory (spec/20_memory.md) -/

/-- R52 and R53: the read and the write of one byte, below 0x1000 and above it; a write changes the byte written and no other.
The premise is the canonical form, which every step keeps (`StepKeepsInv`). -/
def Obligations.MemoryReadAndWriteOneByte : Prop :=
  ∀ (m : Memory) (a : Nat) (b : Byte), m.wf →
    (a > 0xFFF → m.readByte a = .error (.memoryOutOfBounds a) ∧ m.writeByte a b = .error (.memoryOutOfBounds a)) ∧
    (a ≤ 0xFFF → (∃ c, m.readByte a = .ok c) ∧
      ∃ m', m.writeByte a b = .ok m' ∧ m'.readByte a = .ok b ∧ ∀ a', a' ≠ a → m'.readByte a' = m.readByte a')

/-- The canonical form is canonical: two memories of that form that read alike everywhere are the same list. The form is the
model's own (log entry 3). -/
def Obligations.CanonicalMemoriesReadingAlikeAreEqual : Prop :=
  ∀ m m' : Memory, m.wf → m'.wf → (∀ a, m.readByte a = m'.readByte a) → m = m'

/-- R60 and R112: a fetch is big-endian, and reports the first of its two addresses above 0xFFF, the second by the exact sum
(decisions D15, D17). -/
def Obligations.FetchIsBigEndian : Prop :=
  ∀ (m : Memory) (a : Nat),
    (∀ hi lo, m.readByte a = .ok hi → m.readByte (a + 1) = .ok lo →
      ∃ w, m.fetch16 a = .ok w ∧ w.toNat = 256 * hi.toNat + lo.toNat) ∧
    (a = 0xFFF → m.fetch16 a = .error (.memoryOutOfBounds 0x1000)) ∧
    (a > 0xFFF → m.fetch16 a = .error (.memoryOutOfBounds a))

/-- R67: the bytes a StoreRegs writes are the word the next fetch from that address gives (V0 the high byte, V1 the low). The
canonical form is a premise (`StepKeepsInv`). -/
def Obligations.StoredRegistersAreFetched : Prop :=
  ∀ (x : Reg) (s : State), s.mem.wf → 1 ≤ x.val → s.base + x.val ≤ 0xFFF →
    ∃ t w, exec (.storeRegs x) s = .next t ∧ t.mem.fetch16 s.base = .ok w ∧
      w.toNat = 256 * (s.reg 0).toNat + (s.reg 1).toNat

/-! ## Control transfer (spec/41_control_flow.md) -/

/-- R141 and R142: the skips on an immediate: their encodings, when they skip, and that they change `PC` alone. -/
def Obligations.SkipsOnImmediate : Prop :=
  ∀ (x : Reg) (kk : Byte) (s : State),
    decode (wordXKK 0x3 x kk) = .skipEqImm x kk ∧ decode (wordXKK 0x4 x kk) = .skipNeImm x kk ∧
    (∃ t, exec (.skipEqImm x kk) s = .next t ∧ t.pc = (if s.reg x = kk then s.pc + 2 else s.pc) ∧ onlyChanges [.pc] s t) ∧
    (∃ t, exec (.skipNeImm x kk) s = .next t ∧ t.pc = (if s.reg x = kk then s.pc else s.pc + 2) ∧ onlyChanges [.pc] s t)

/-- R143 and R144: the skips on two registers: their encodings (a discriminator other than 0 is Unknown), when they skip, that
they change `PC` alone, and that with `x = y` the one always and the other never skips. -/
def Obligations.SkipsOnRegisters : Prop :=
  ∀ (x y : Reg) (s : State),
    decode (wordXYD 0x5 x y 0) = .skipEqReg x y ∧ decode (wordXYD 0x9 x y 0) = .skipNeReg x y ∧
    (∀ d : Nibble, d ≠ 0 → decode (wordXYD 0x5 x y d) = .unknown ∧ decode (wordXYD 0x9 x y d) = .unknown) ∧
    (∃ t, exec (.skipEqReg x y) s = .next t ∧ t.pc = (if s.reg x = s.reg y then s.pc + 2 else s.pc) ∧
      onlyChanges [.pc] s t) ∧
    (∃ t, exec (.skipNeReg x y) s = .next t ∧ t.pc = (if s.reg x = s.reg y then s.pc else s.pc + 2) ∧
      onlyChanges [.pc] s t) ∧
    (∃ t, exec (.skipEqReg x x) s = .next t ∧ t.pc = s.pc + 2) ∧ (∃ t, exec (.skipNeReg x x) s = .next t ∧ t.pc = s.pc)

/-- R140: a skip taken in a step ends 4 past its own address, whatever the word it skips, which is not fetched: also where that
word is past the end of memory, and then it is the next fetch that faults. A skip not taken ends 2 past it. Nothing but `PC`
changes. -/
def Obligations.TakenSkipEndsFourPast : Prop :=
  ∀ (s : State) (w : Word) (x y : Reg) (kk : Byte), s.run = .running → s.fetch = .ok w →
    (decode w = .skipEqImm x kk ∧ s.reg x = kk ∨ decode w = .skipNeImm x kk ∧ s.reg x ≠ kk ∨
      decode w = .skipEqReg x y ∧ s.reg x = s.reg y ∨ decode w = .skipNeReg x y ∧ s.reg x ≠ s.reg y →
      ∃ t, step s = .next t ∧ t.pc = s.pc + 4 ∧ onlyChanges [.pc] s t ∧ nextFetchFaults t) ∧
    (decode w = .skipEqImm x kk ∧ s.reg x ≠ kk ∨ decode w = .skipNeImm x kk ∧ s.reg x = kk ∨
      decode w = .skipEqReg x y ∧ s.reg x ≠ s.reg y ∨ decode w = .skipNeReg x y ∧ s.reg x = s.reg y →
      ∃ t, step s = .next t ∧ t.pc = s.pc + 2 ∧ onlyChanges [.pc] s t)

/-- R145: Jump goes to `nnn`, any 12-bit address, and changes `PC` alone; the next fetch reads from `nnn`, odd or even, and faults
from 0xFFF; a jump to its own address is a fixed point of the step (R127). -/
def Obligations.JumpGoesToAddress : Prop :=
  ∀ (nnn : BitVec 12) (s : State), decode (wordNNN 0x1 nnn) = .jump nnn ∧
    (∃ t, exec (.jump nnn) s = .next t ∧ t.pc.toNat = nnn.toNat ∧ t.fetch = s.mem.fetch16 nnn.toNat ∧
      onlyChanges [.pc] s t ∧ nextFetchFaults t) ∧
    (s.run = .running → s.fetch = .ok (wordNNN 0x1 nnn) → s.pc.toNat = nnn.toNat → step s = .next s)

/-- R147: JumpAddV0 goes to the exact sum of `nnn` and V0, never wrapped, and changes `PC` alone; from a target above 0xFFE the
next fetch faults. -/
def Obligations.JumpAddV0GoesToSum : Prop :=
  ∀ (nnn : BitVec 12) (s : State), decode (wordNNN 0xB nnn) = .jumpAddV0 nnn ∧
    ∃ t, exec (.jumpAddV0 nnn) s = .next t ∧ t.pc.toNat = nnn.toNat + (s.reg 0).toNat ∧ t.pc.toNat ≤ 0x10FE ∧
      onlyChanges [.pc] s t ∧ nextFetchFaults t

/-- R146 with R25: where the stack has room, Call appends `PC` and jumps, and changes nothing else. The limit is the machine's
parameter (decision D5), here any value of the state's field. -/
def Obligations.CallPushesReturnAddress : Prop :=
  ∀ (nnn : BitVec 12) (s : State), s.stackDepth ≠ some s.stack.length →
    ∃ t, exec (.call nnn) s = .next t ∧ t.stack = s.stack ++ [s.pc] ∧ t.pc.toNat = nnn.toNat ∧
      onlyChanges [.pc, .stack] s t

/-- R146 and R273: where the stack is full, Call raises the overflow fault with the address it could not push, and nothing else
happens: in a step, `PC` stays at the Call (decision D5). -/
def Obligations.CallOnFullStackFaults : Prop :=
  ∀ (nnn : BitVec 12) (s : State), s.stackDepth = some s.stack.length →
    (∃ t, exec (.call nnn) s = .next t ∧ faultedOnly (.stackOverflow s.pc) s t) ∧
    (s.run = .running → s.fetch = .ok (wordNNN 0x2 nnn) →
      ∃ t, step s = .next t ∧ faultedOnly (.stackOverflow (s.pc + 2)) s t)

/-- R148 and R272: Return takes the last address pushed off the stack into `PC`, as it is; on an empty stack it raises the
underflow fault and commits nothing (decision D16): in a step, `PC` stays at the Return's own address. -/
def Obligations.ReturnPopsOrUnderflows : Prop :=
  ∀ s : State, decode 0x00EE = .ret ∧
    (∀ st a, s.stack = st ++ [a] →
      ∃ t, exec .ret s = .next t ∧ t.pc = a ∧ t.stack = st ∧ onlyChanges [.pc, .stack] s t ∧ nextFetchFaults t) ∧
    (s.stack = [] → (∃ t, exec .ret s = .next t ∧ faultedOnly .stackUnderflow s t) ∧
      (s.run = .running → s.fetch = .ok 0x00EE → ∃ t, step s = .next t ∧ faultedOnly .stackUnderflow s t))

/-- Call and Return undo each other (the source's round trip, R146 and R148): `PC` and the stack are as before the Call, and so is
everything else. -/
def Obligations.ReturnUndoesCall : Prop :=
  ∀ (nnn : BitVec 12) (s : State), s.stackDepth ≠ some s.stack.length →
    ∃ t u, exec (.call nnn) s = .next t ∧ t.stack ≠ [] ∧ exec .ret t = .next u ∧ onlyChanges [] s u

/-! ## Registers and ALU (spec/42_alu.md) -/

/-- R172: SetImm writes `kk` to `V[x]`, any register, VF included, and nothing else. -/
def Obligations.SetImmWritesDestination : Prop :=
  ∀ (x : Reg) (kk : Byte) (s : State), decode (wordXKK 0x6 x kk) = .setImm x kk ∧
    ∃ t, exec (.setImm x kk) s = .next t ∧ t.reg x = kk ∧ regsUnchangedBut [x] s t ∧ onlyChanges [.regs] s t

/-- R173: AddImm adds modulo 256; the carry out is discarded, and VF changes only as the destination (decision D10). -/
def Obligations.AddImmWraps : Prop :=
  ∀ (x : Reg) (kk : Byte) (s : State), decode (wordXKK 0x7 x kk) = .addImm x kk ∧
    ∃ t, exec (.addImm x kk) s = .next t ∧ (t.reg x).toNat = ((s.reg x).toNat + kk.toNat) % 256 ∧
      regsUnchangedBut [x] s t ∧ onlyChanges [.regs] s t

/-- R174 with R125: Random writes the draw masked by `kk`. In `exec` the draw is the free byte; handed in by the host it is any
byte (decision D18; log entry 1). -/
def Obligations.RandomMasksTheDraw : Prop :=
  ∀ (x : Reg) (kk : Byte) (s : State), decode (wordXKK 0xC x kk) = .random x kk ∧
    (∃ t, exec (.random x kk) s = .next t ∧ (∀ j < 8, (t.reg x).getLsbD j = ((Config.randomByte s.draws).getLsbD j && kk.getLsbD j)) ∧
      t.draws = s.draws + 1 ∧ regsUnchangedBut [x] s t ∧ onlyChanges [.regs, .draws] s t) ∧
    (∀ r : Byte, ∃ t, execWith r (.random x kk) s = .next t ∧ (∀ j < 8, (t.reg x).getLsbD j = (r.getLsbD j && kk.getLsbD j)) ∧
      t.draws = s.draws + 1 ∧ regsUnchangedBut [x] s t ∧ onlyChanges [.regs, .draws] s t)

/-- R175 to R178: Copy writes `V[y]` to `V[x]`; Or, And and Xor write it bit by bit; VF changes only as the destination
(decision D9; the words of the family are its D7, log entry 9). -/
def Obligations.CopyAndLogicWriteDestination : Prop :=
  ∀ (x y : Reg) (s : State),
    (∃ t, exec (.copy x y) s = .next t ∧ t.reg x = s.reg y ∧ regsUnchangedBut [x] s t ∧ onlyChanges [.regs] s t) ∧
    (∃ t, exec (.or x y) s = .next t ∧ (∀ j < 8, (t.reg x).getLsbD j = ((s.reg x).getLsbD j || (s.reg y).getLsbD j)) ∧
      regsUnchangedBut [x] s t ∧ onlyChanges [.regs] s t) ∧
    (∃ t, exec (.and x y) s = .next t ∧ (∀ j < 8, (t.reg x).getLsbD j = ((s.reg x).getLsbD j && (s.reg y).getLsbD j)) ∧
      regsUnchangedBut [x] s t ∧ onlyChanges [.regs] s t) ∧
    (∃ t, exec (.xor x y) s = .next t ∧ (∀ j < 8, (t.reg x).getLsbD j = ((s.reg x).getLsbD j != (s.reg y).getLsbD j)) ∧
      regsUnchangedBut [x] s t ∧ onlyChanges [.regs] s t)

/-- R179: AddCarry writes the sum modulo 256 to `V[x]` and then the carry to VF, which is what VF holds when `x = 0xF`
(decision D8). -/
def Obligations.AddCarrySumAndCarry : Prop :=
  ∀ (x y : Reg) (s : State), ∃ t, exec (.addCarry x y) s = .next t ∧
    (x ≠ vf → (t.reg x).toNat = ((s.reg x).toNat + (s.reg y).toNat) % 256) ∧
    t.reg vf = (if (s.reg x).toNat + (s.reg y).toNat > 255 then 1 else 0) ∧
    regsUnchangedBut [x, vf] s t ∧ onlyChanges [.regs] s t

/-- R180 and R182: SubBorrow and SubnBorrow write the difference modulo 256 and then not-borrow: 1 when no borrow occurred,
equality included (decision D8 for `x = 0xF`). -/
def Obligations.SubtractionsAndNotBorrow : Prop :=
  ∀ (x y : Reg) (s : State),
    (∃ t, exec (.subBorrow x y) s = .next t ∧
      (x ≠ vf → (t.reg x).toNat = (256 + (s.reg x).toNat - (s.reg y).toNat) % 256) ∧
      t.reg vf = (if (s.reg x).toNat ≥ (s.reg y).toNat then 1 else 0) ∧
      regsUnchangedBut [x, vf] s t ∧ onlyChanges [.regs] s t) ∧
    (∃ t, exec (.subnBorrow x y) s = .next t ∧
      (x ≠ vf → (t.reg x).toNat = (256 + (s.reg y).toNat - (s.reg x).toNat) % 256) ∧
      t.reg vf = (if (s.reg y).toNat ≥ (s.reg x).toNat then 1 else 0) ∧
      regsUnchangedBut [x, vf] s t ∧ onlyChanges [.regs] s t)

/-- R181 and R183: the shifts read `V[y]`, not the old `V[x]`, and VF ends as the bit shifted out (decision D8 for `x = 0xF`). -/
def Obligations.ShiftsOfSourceRegister : Prop :=
  ∀ (x y : Reg) (s : State),
    (∃ t, exec (.shiftRight x y) s = .next t ∧ (x ≠ vf → (t.reg x).toNat = (s.reg y).toNat / 2) ∧
      (t.reg vf).toNat = (s.reg y).toNat % 2 ∧ regsUnchangedBut [x, vf] s t ∧ onlyChanges [.regs] s t) ∧
    (∃ t, exec (.shiftLeft x y) s = .next t ∧ (x ≠ vf → (t.reg x).toNat = 2 * (s.reg y).toNat % 256) ∧
      (t.reg vf).toNat = (s.reg y).toNat / 128 ∧ regsUnchangedBut [x, vf] s t ∧ onlyChanges [.regs] s t)

/-- R22: an instruction that is none of the six flag writers, and does not have VF as its destination, leaves VF as it was
(decisions D9, D10). -/
def Obligations.OnlyFlagWritersTouchVF : Prop :=
  ∀ (i : Instr) (s t : State), writesFlag i = false → vf ∉ destinations i → exec i s = .next t → t.reg vf = s.reg vf

/-- R170 and R22: what a flag writer that completes leaves in VF is exactly 0x00 or 0x01, whatever its operands, VF among them
(decisions D8, D12). -/
def Obligations.FlagValuesAreZeroOrOne : Prop :=
  ∀ (i : Instr) (s t : State), writesFlag i = true → s.run = .running → exec i s = .next t → t.run = .running →
    t.reg vf = 0 ∨ t.reg vf = 1

/-! ## Display (spec/43_display.md) -/

/-- R211 and R213: Clear makes every pixel false, and changes nothing else, VF included. -/
def Obligations.ClearMakesEveryPixelFalse : Prop :=
  ∀ s : State, decode 0x00E0 = .clear ∧
    ∃ t, exec .clear s = .next t ∧ (∀ c r, t.disp.pixel c r = false) ∧ onlyChanges [.display] s t

/-- R210, with R212, which the spec derives from it: the blit, bit after bit, is one exclusive or of the display with the cells
that the 1 bits of the sprite cover, every coordinate taken modulo the grid; and its one flag says that some covered cell was
true before the blit. -/
def Obligations.BlitIsPixelwiseXor : Prop :=
  ∀ (d : Display) (cx cy : Byte) (rows : List Byte), rows.length ≤ 15 →
    (∀ c r, (d.blit cx cy rows).1.pixel c r = true ↔ ¬ (d.pixel c r = true ↔ spriteCovers cx cy rows c r)) ∧
    ((d.blit cx cy rows).2 = true ↔ ∃ c r, spriteCovers cx cy rows c r ∧ d.pixel c r = true)

/-- R214: Draw of `n` rows that all exist: the pixels, the collision flag in VF, which is always written, also for `n = 0`, and
the frame. The sprite address is the spec's decision D11, the flag without a collision its D12. -/
def Obligations.DrawBlitsTheSprite : Prop :=
  ∀ (x y : Reg) (n : Nat) (s : State), (Instr.draw x y n).wellFormed = true → (n = 0 ∨ s.base + n ≤ 0x1000) →
    ∃ t, exec (.draw x y n) s = .next t ∧
      (∀ c r, t.disp.pixel c r = true ↔
        ¬ (s.disp.pixel c r = true ↔ spriteCovers (s.reg x) (s.reg y) (spriteRows s n) c r)) ∧
      ((∃ c r, spriteCovers (s.reg x) (s.reg y) (spriteRows s n) c r ∧ s.disp.pixel c r = true) → t.reg vf = 1) ∧
      ((¬ ∃ c r, spriteCovers (s.reg x) (s.reg y) (spriteRows s n) c r ∧ s.disp.pixel c r = true) → t.reg vf = 0) ∧
      regsUnchangedBut [vf] s t ∧ onlyChanges [.regs, .display] s t

/-- R214, R271 and R276: a Draw with a row above 0xFFF raises the fault of the first such row, and the display and VF, like all
else, are unchanged (decisions D11, D15, D17). -/
def Obligations.DrawPastTheEndFaults : Prop :=
  ∀ (x y : Reg) (n : Nat) (s : State), 0 < n → s.base + n > 0x1000 →
    ∃ t, exec (.draw x y n) s = .next t ∧ faultedOnly (.memoryOutOfBounds (max s.base 0x1000)) s t

/-- R215: a second Draw with the same coordinates and the same sprite restores the display, and its flag is 1 exactly when the
first turned some pixel on. That the sprite is the bytes at `I` is the spec's decision D11, that the flag is written also without
a collision its D12 (log entry 14). -/
def Obligations.DrawingTwiceRestoresTheDisplay : Prop :=
  ∀ (x y : Reg) (n : Nat) (s t : State), (Instr.draw x y n).wellFormed = true → (n = 0 ∨ s.base + n ≤ 0x1000) →
    exec (.draw x y n) s = .next t → t.reg x = s.reg x → t.reg y = s.reg y →
    ∃ u, exec (.draw x y n) t = .next u ∧ (∀ c r, u.disp.pixel c r = s.disp.pixel c r) ∧
      (u.reg vf = 1 ↔ ∃ c r, s.disp.pixel c r = false ∧ t.disp.pixel c r = true)

/-! ## Index register, loads and stores, Unknown (spec/44_index_memory.md) -/

/-- R240: SetIndex sets `I` to `nnn`, zero-extended, and nothing else. -/
def Obligations.SetIndexWritesI : Prop :=
  ∀ (nnn : BitVec 12) (s : State), decode (wordNNN 0xA nnn) = .setIndex nnn ∧
    ∃ t, exec (.setIndex nnn) s = .next t ∧ t.i.toNat = nnn.toNat ∧ onlyChanges [.index] s t

/-- R241: AddToIndex adds modulo 65536, past 0xFFF without a fault, and writes no flag (decision D10). -/
def Obligations.AddToIndexWraps : Prop :=
  ∀ (x : Reg) (s : State), decode (wordXKK 0xF x 0x1E) = .addToIndex x ∧
    ∃ t, exec (.addToIndex x) s = .next t ∧ t.i.toNat = (s.i.toNat + (s.reg x).toNat) % 65536 ∧ onlyChanges [.index] s t

/-- R242: StoreBCD stores the hundreds, tens and units of `V[x]` at `I`, `I + 1`, `I + 2`, and nothing else changes (the digit
order is the spec's decision D14, `I` unchanged its D13). The canonical form is a premise (`StepKeepsInv`). -/
def Obligations.StoreBCDStoresDigits : Prop :=
  ∀ (x : Reg) (s : State), s.mem.wf → s.base + 2 ≤ 0xFFF →
    ∃ t h m l, exec (.storeBCD x) s = .next t ∧ t.mem.readByte s.base = .ok h ∧ t.mem.readByte (s.base + 1) = .ok m ∧
      t.mem.readByte (s.base + 2) = .ok l ∧ h.toNat = (s.reg x).toNat / 100 ∧ m.toNat = (s.reg x).toNat / 10 % 10 ∧
      l.toNat = (s.reg x).toNat % 10 ∧ memUnchangedOutside s.base 3 s t ∧ onlyChanges [.memory] s t

/-- R243: StoreRegs stores V0..Vx, inclusive, at `I .. I + x`, and nothing else changes (`I` unchanged is decision D13). The
canonical form is a premise (`StepKeepsInv`). -/
def Obligations.StoreRegsStoresTheRange : Prop :=
  ∀ (x : Reg) (s : State), s.mem.wf → s.base + x.val ≤ 0xFFF →
    ∃ t, exec (.storeRegs x) s = .next t ∧ (∀ k : Reg, k ≤ x → t.mem.readByte (s.base + k.val) = .ok (s.reg k)) ∧
      memUnchangedOutside s.base (x.val + 1) s t ∧ onlyChanges [.memory] s t

/-- R244: LoadRegs loads V0..Vx, inclusive, from `I .. I + x`, VF as an ordinary register, and nothing else changes (`I` unchanged
is decision D13). -/
def Obligations.LoadRegsLoadsTheRange : Prop :=
  ∀ (x : Reg) (s : State), s.base + x.val ≤ 0xFFF →
    ∃ t, exec (.loadRegs x) s = .next t ∧ (∀ k : Reg, k ≤ x → s.mem.readByte (s.base + k.val) = .ok (t.reg k)) ∧
      (∀ k : Reg, x < k → t.reg k = s.reg k) ∧ onlyChanges [.regs] s t

/-- R242, R243 and R244 with R276: where a byte of the access is above 0xFFF, the fault of the first such address is raised, and
nothing is stored or loaded, not even at the addresses that exist (decisions D15, D16, D17). -/
def Obligations.AccessPastTheEndFaultsWhole : Prop :=
  ∀ (x : Reg) (s : State),
    (s.base + 2 > 0xFFF →
      ∃ t, exec (.storeBCD x) s = .next t ∧ faultedOnly (.memoryOutOfBounds (max s.base 0x1000)) s t) ∧
    (s.base + x.val > 0xFFF →
      (∃ t, exec (.storeRegs x) s = .next t ∧ faultedOnly (.memoryOutOfBounds (max s.base 0x1000)) s t) ∧
      (∃ t, exec (.loadRegs x) s = .next t ∧ faultedOnly (.memoryOutOfBounds (max s.base 0x1000)) s t))

/-- R115: executing Unknown changes nothing, and a step that fetches an Unknown word changes only `PC`, by 2. -/
def Obligations.UnknownChangesOnlyPc : Prop :=
  ∀ s : State, (∃ t, exec .unknown s = .next t ∧ onlyChanges [] s t) ∧
    ∀ w, s.run = .running → s.fetch = .ok w → decode w = .unknown →
      ∃ t, step s = .next t ∧ t.pc = s.pc + 2 ∧ onlyChanges [.pc] s t

/-! ## The step (spec/40_sequencer.md) and the faults (spec/60_exceptions.md) -/

/-- R110 and R111: a step of a running machine whose two bytes at `PC` decode to `i` is `exec i` from the state with `PC` advanced
by 2; where that takes a fault, the step is the state before it with the fault taken (R118, decision D16). -/
def Obligations.StepRunsTheDecodedInstruction : Prop :=
  ∀ (s t : State) (hi lo : Byte) (i : Instr), s.run = .running →
    s.mem.readByte s.pc.toNat = .ok hi → s.mem.readByte (s.pc.toNat + 1) = .ok lo →
    decodeBytes [hi, lo] = .ok (i, []) → exec i { s with pc := s.pc + 2 } = .next t →
    (t.run = .running → step s = .next t) ∧ (∀ f, t.run = .faulted f → step s = .next { s with run := .faulted f })

/-- R112: a fetch at `PC = 0xFFF` or above faults, at 0x1000 or at `PC`, and commits nothing, `PC` included (decisions D15,
D16). -/
def Obligations.FetchPastTheEndFaults : Prop :=
  ∀ s : State, s.run = .running →
    (s.pc.toNat = 0xFFF → ∃ t, step s = .next t ∧ faultedOnly (.memoryOutOfBounds 0x1000) s t) ∧
    (s.pc.toNat > 0xFFF → ∃ t, step s = .next t ∧ faultedOnly (.memoryOutOfBounds s.pc.toNat) s t)

/-- R110 with R88 and R114: a running machine always answers a next state: no word is illegal, and no data ends a run without
the spec's own fault being recorded in the state. -/
def Obligations.RunningStepAnswersNext : Prop := ∀ s : State, s.run = .running → ∃ t, step s = .next t

/-- R114 with R116: execution is total, and each instruction either completes, leaving the run state alone, or takes one fault
over the state it started from (decision D16). -/
def Obligations.ExecCompletesOrFaultsWhole : Prop :=
  ∀ (i : Instr) (s : State), ∃ t, exec i s = .next t ∧ (t.run = s.run ∨ ∃ f, t = { s with run := .faulted f })

/-- R118: a step that ends in a fault has changed nothing but the run state (decision D16). -/
def Obligations.FaultingStepCommitsNothing : Prop :=
  ∀ (s t : State) (f : Fault), s.run = .running → step s = .next t → t.run = .faulted f → t = { s with run := .faulted f }

/-- R119 and R275: in a faulted state, `step` and `execute` answer the recorded fault and change nothing, and no host operation but
reset leaves it (decision D16; `execute` in a faulted state is DEDUCED, log entry 7). -/
def Obligations.FaultedIsAbsorbing : Prop :=
  ∀ (s : State) (f : Fault), s.run = .faulted f →
    step s = .fault f ∧ (∀ r, (HostOp.step r).apply s = (s, .faulted f)) ∧
    (∀ i r, (HostOp.execute i r).apply s = (s, .faulted f)) ∧
    (∀ op : HostOp, op ≠ .reset → (op.apply s).1.run = .faulted f) ∧ (HostOp.reset.apply s).1.run = .running

/-- R270 and R276: which instruction raises which fault, and with what: no instruction can raise two kinds (decisions D5, D15,
D17). -/
def Obligations.FaultsByInstruction : Prop :=
  ∀ (i : Instr) (s t : State), s.run = .running → exec i s = .next t →
    (∀ a, t.run = .faulted (.memoryOutOfBounds a) → accessesMemory i = true ∧ a = max s.base 0x1000) ∧
    (t.run = .faulted .stackUnderflow → i = .ret ∧ s.stack = []) ∧
    (∀ a, t.run = .faulted (.stackOverflow a) → (∃ nnn, i = .call nnn) ∧ a = s.pc ∧ s.stackDepth = some s.stack.length)

/-- R22 to R25, R27, R28 as one whole-machine rule: an instruction that completes writes a register only as its destination, VF
also as its flag; `PC` only as a control transfer; `I` only by SetIndex and AddToIndex, the stack by Call and Return, the display
by Clear and Draw, memory by StoreBCD and StoreRegs; no instruction writes `DT` (decisions D9, D10 for VF, D13 for `I`; the draw
counter is the model's, log entry 1). -/
def Obligations.EachPartHasItsWriters : Prop :=
  ∀ (i : Instr) (s t : State), s.run = .running → exec i s = .next t → t.run = .running →
    (∀ k, k ∉ destinations i → ¬ (k = vf ∧ writesFlag i = true) → t.reg k = s.reg k) ∧
    (transfersControl i = false → t.pc = s.pc) ∧ onlyChanges ([.regs, .pc] ++ writableParts i) s t

/-- R24 and R111: a step of an instruction that is no control transfer, when it completes, advances `PC` by exactly 2. -/
def Obligations.SequentialStepsAdvanceByTwo : Prop :=
  ∀ (s t : State) (w : Word), s.run = .running → s.fetch = .ok w → transfersControl (decode w) = false →
    step s = .next t → t.run = .running → t.pc = s.pc + 2

/-- R27 and R126: the delay timer is invisible to programs: whatever the host sets it to, a step does the same, and leaves the
timer at what it was set to. -/
def Obligations.StepIgnoresTheDelayTimer : Prop :=
  ∀ (s t : State) (b : Byte), step s = .next t → step { s with dt := b } = .next { t with dt := b }

/-- Every step keeps the invariant, from every state that meets it: memory canonical and within 0x000..0xFFF, the stack within its
limit, a recorded fault a possible one (R25, R50, R271 to R273). The canonical form of memory is the model's (log entry
3). -/
def Obligations.StepKeepsInv : Prop := ∀ s t : State, Inv s → step s = .next t → Inv t

/-- The reset state meets the invariant. -/
def Obligations.ResetMeetsInv : Prop := Inv State.reset

/-! ## Reset and the host interface (spec/70_reset_and_hazards.md, spec/40_sequencer.md section 3) -/

/-- R34 and R300: the reset state: `PC` = 0x200, every pixel false, the 80 glyph bytes of R55, row after row of its table, at
0x050..0x09F, 0x00 in the rest of memory, every register, `I` and `DT` 0, the stack empty, running (decisions D2, D3, D4,
D16; log entries 3, 4, 5 and 8). -/
def Obligations.ResetStateOfTheSpec : Prop :=
  State.reset.pc = 0x200 ∧ (∀ c r, State.reset.disp.pixel c r = false) ∧
  State.reset.mem.readBytes 0x050 80 = .ok
    ([0xF0, 0x90, 0x90, 0x90, 0xF0, 0x20, 0x60, 0x20, 0x20, 0x70, 0xF0, 0x10, 0xF0, 0x80, 0xF0, 0xF0, 0x10, 0xF0, 0x10, 0xF0] ++
     [0x90, 0x90, 0xF0, 0x10, 0x10, 0xF0, 0x80, 0xF0, 0x10, 0xF0, 0xF0, 0x80, 0xF0, 0x90, 0xF0, 0xF0, 0x10, 0x20, 0x40, 0x40] ++
     [0xF0, 0x90, 0xF0, 0x90, 0xF0, 0xF0, 0x90, 0xF0, 0x10, 0xF0, 0xF0, 0x90, 0xF0, 0x90, 0x90, 0xE0, 0x90, 0xE0, 0x90, 0xE0] ++
     [0xF0, 0x80, 0x80, 0x80, 0xF0, 0xE0, 0x90, 0x90, 0x90, 0xE0, 0xF0, 0x80, 0xF0, 0x80, 0xF0, 0xF0, 0x80, 0xF0, 0x80, 0x80]) ∧
  (∀ a, a ≤ 0xFFF → (a < 0x050 ∨ 0x0A0 ≤ a) → State.reset.mem.readByte a = .ok 0x00) ∧
  (∀ k, State.reset.reg k = 0) ∧ State.reset.i = 0 ∧ State.reset.dt = 0 ∧ State.reset.stack = [] ∧
  State.reset.run = .running

/-- R275, R300: the host's reset of any state, faulted or not, is the reset state in every part of the spec's. The machine's stack
limit stays (D5; log entry 2), and the draws taken stay counted, the model's choice (log entry 1). -/
def Obligations.HostResetEstablishesReset : Prop :=
  ∀ s : State, (HostOp.reset.apply s).2 = .done ∧
    { (HostOp.reset.apply s).1 with stackDepth := none, draws := 0 } = State.reset ∧
    (HostOp.reset.apply s).1.stackDepth = s.stackDepth ∧ (HostOp.reset.apply s).1.draws = s.draws

/-- R121: `load` copies an image of at most 0xE00 bytes to 0x200 and up and changes nothing else; a longer one is a host error that
writes nothing (decision D26). The canonical form is a premise (`StepKeepsInv`). -/
def Obligations.HostLoadCopiesTheImage : Prop :=
  ∀ (b : List Byte) (s : State), s.mem.wf →
    (b.length ≤ 0xE00 → ((HostOp.load b).apply s).2 = .done ∧
      (∀ j (h : j < b.length), ((HostOp.load b).apply s).1.mem.readByte (0x200 + j) = .ok b[j]) ∧
      memUnchangedOutside 0x200 b.length s ((HostOp.load b).apply s).1 ∧
      onlyChanges [.memory] s ((HostOp.load b).apply s).1) ∧
    (b.length > 0xE00 → (HostOp.load b).apply s = (s, .hostError (.memoryOutOfBounds 0x1000)))

/-- R123: the snapshot is 2048 booleans, row-major, element `r * 64 + c` the pixel `(c, r)`, and changes nothing. -/
def Obligations.SnapshotIsRowMajor : Prop :=
  ∀ s : State, ∃ ps : List Bool, HostOp.snapshot.apply s = (s, .pixels ps) ∧ ps.length = 2048 ∧
    ∀ (c : Fin 64) (r : Fin 32), ps[r.val * 64 + c.val]? = some (s.disp.pixel c r)

/-- R122 and R126: `setPC` writes `PC` and nothing else, `tickDT` decrements `DT` where it is above 0 and changes nothing else
(decisions D22, D23; log entry 6). -/
def Obligations.HostSetPcAndTick : Prop :=
  ∀ (s : State) (a : Addr),
    (((HostOp.setPC a).apply s).1.pc = a ∧ onlyChanges [.pc] s ((HostOp.setPC a).apply s).1) ∧
    ((HostOp.tickDT.apply s).1.dt.toNat = s.dt.toNat - 1 ∧ onlyChanges [.timer] s (HostOp.tickDT.apply s).1)

/-- R124 and R110: in a running machine `execute(op, r)` applies the operation to the current state, with no fetch and no advance,
and `step(r)` executes the fetched word with `PC` advanced by 2 and the draw `r`; each leaves the next state, or takes the fault
with nothing else committed (decision D16, log entry 11), and the step replies `Ok` or that fault (R110, R120). That `execute`
replies so too is the model's choice (log entry 22). -/
def Obligations.HostExecuteAppliesTheOperation : Prop :=
  ∀ (r : Byte) (s : State), s.run = .running →
    (∀ i, ranAndReplied s (execWith r i s) ((HostOp.execute i r).apply s)) ∧
    ranAndReplied s (stepWith r s) ((HostOp.step r).apply s) ∧
    ∀ w t, s.fetch = .ok w → execWith r (decode w) { s with pc := s.pc + 2 } = .next t →
      (t.run = .running → stepWith r s = .next t) ∧ (∀ f, t.run = .faulted f → stepWith r s = .next { s with run := .faulted f })

/-- R125: the machine's step is the host's `step(r)` for the free draw, and a step that does not execute Random is the same for
every draw; so is the execution of an operation other than Random, and the host's `execute(op, r)` of it (decision D18; log
entry 1). -/
def Obligations.OnlyRandomReadsTheDraw : Prop :=
  ∀ s : State, step s = stepWith (Config.randomByte s.draws) s ∧
    (∀ w r, s.fetch = .ok w → (∀ x kk, decode w ≠ .random x kk) → stepWith r s = step s) ∧
    ∀ i r, (∀ x kk, i ≠ .random x kk) →
      execWith r i s = exec i s ∧ ∀ r', (HostOp.execute i r).apply s = (HostOp.execute i r').apply s

/-- Every host operation keeps the invariant, in any state that meets it (R120 to R126). -/
def Obligations.HostOperationsKeepInv : Prop := ∀ (op : HostOp) (s : State), Inv s → Inv (op.apply s).1

/-- R120: `inspect` answers `V`, `I`, `PC`, the stack, `DT`, the 4096 bytes of memory and the run state, and changes nothing
(decision D22). -/
def Obligations.InspectReturnsTheState : Prop :=
  ∀ s : State, ∃ v bytes, HostOp.inspect.apply s = (s, .inspected v s.i s.pc s.stack s.dt bytes s.run) ∧
    v.length = 16 ∧ (∀ k : Reg, v[k.val]? = some (s.reg k)) ∧ bytes.length = 0x1000 ∧
    ∀ a b, a ≤ 0xFFF → (bytes[a]? = some b ↔ s.mem.readByte a = .ok b)
end

