-- ==== Sys2Proof/Laws/Decode.lean ====
section
/-! SUPPORT. The bits, and from them the fields, of a word put together from its nibbles or its bytes. -/

namespace Sys2Proof

theorem getLsbD_wordNNN (c : Nibble) (nnn : BitVec 12) (i : Nat) :
    (wordNNN c nnn).getLsbD i = if i < 12 then nnn.getLsbD i else c.getLsbD (i - 12) :=
  BitVec.getLsbD_append

theorem getLsbD_wordXKK (c : Nibble) (x : Reg) (kk : Byte) (i : Nat) :
    (wordXKK c x kk).getLsbD i =
      if i < 8 then kk.getLsbD i else if i - 8 < 4 then (Reg.nibble x).getLsbD (i - 8) else c.getLsbD (i - 8 - 4) :=
  (BitVec.getLsbD_append (x := c ++ Reg.nibble x) (y := kk)).trans (by rw [BitVec.getLsbD_append])

theorem getLsbD_wordXYD (c : Nibble) (x y : Reg) (d : Nibble) (i : Nat) :
    (wordXYD c x y d).getLsbD i =
      if i < 4 then d.getLsbD i else if i - 4 < 4 then (Reg.nibble y).getLsbD (i - 4)
      else if i - 4 - 4 < 4 then (Reg.nibble x).getLsbD (i - 4 - 4) else c.getLsbD (i - 4 - 4 - 4) :=
  (BitVec.getLsbD_append (x := c ++ Reg.nibble x ++ Reg.nibble y) (y := d)).trans
    (by rw [BitVec.getLsbD_append, BitVec.getLsbD_append])

theorem getLsbD_bytesWord (hi lo : Byte) (i : Nat) :
    (bytesWord hi lo).getLsbD i = if i < 8 then lo.getLsbD i else hi.getLsbD (i - 8) :=
  BitVec.getLsbD_append

@[simp] theorem Reg.toFin_nibble (r : Reg) : (Reg.nibble r).toFin = r := rfl

@[simp] theorem fieldC_wordNNN (c : Nibble) (nnn : BitVec 12) : fieldC (wordNNN c nnn) = c := by
  ext i hi
  simp [fieldC, getLsbD_wordNNN, BitVec.getLsbD_eq_getElem hi]

@[simp] theorem fieldNNN_wordNNN (c : Nibble) (nnn : BitVec 12) : fieldNNN (wordNNN c nnn) = nnn := by
  ext i hi
  simp [fieldNNN, getLsbD_wordNNN, hi]

@[simp] theorem fieldC_wordXKK (c : Nibble) (x : Reg) (kk : Byte) : fieldC (wordXKK c x kk) = c := by
  ext i hi
  have h1 : ¬ 12 + i < 8 := by omega
  have h2 : ¬ 12 + i - 8 < 4 := by omega
  have h3 : 12 + i - 8 - 4 = i := by omega
  simp [fieldC, getLsbD_wordXKK, h1, h2, h3, BitVec.getLsbD_eq_getElem hi]

@[simp] theorem fieldX_wordXKK (c : Nibble) (x : Reg) (kk : Byte) : fieldX (wordXKK c x kk) = x := by
  have : nibbleX (wordXKK c x kk) = Reg.nibble x := by
    ext i hi
    simp [nibbleX, getLsbD_wordXKK, hi]
  simp [fieldX, this]

@[simp] theorem fieldKK_wordXKK (c : Nibble) (x : Reg) (kk : Byte) : fieldKK (wordXKK c x kk) = kk := by
  ext i hi
  simp [fieldKK, getLsbD_wordXKK, hi]

@[simp] theorem fieldC_wordXYD (c : Nibble) (x y : Reg) (d : Nibble) : fieldC (wordXYD c x y d) = c := by
  ext i hi
  have h1 : ¬ 12 + i < 4 := by omega
  have h2 : ¬ 12 + i - 4 < 4 := by omega
  have h3 : ¬ 12 + i - 4 - 4 < 4 := by omega
  have h4 : 12 + i - 4 - 4 - 4 = i := by omega
  simp [fieldC, getLsbD_wordXYD, h1, h2, h3, h4, BitVec.getLsbD_eq_getElem hi]

@[simp] theorem fieldX_wordXYD (c : Nibble) (x y : Reg) (d : Nibble) : fieldX (wordXYD c x y d) = x := by
  have : nibbleX (wordXYD c x y d) = Reg.nibble x := by
    ext i hi
    have h1 : ¬ 8 + i < 4 := by omega
    have h2 : ¬ 8 + i - 4 < 4 := by omega
    have h3 : 8 + i - 4 - 4 = i := by omega
    simp [nibbleX, getLsbD_wordXYD, h1, h2, h3, hi]
  simp [fieldX, this]

@[simp] theorem fieldY_wordXYD (c : Nibble) (x y : Reg) (d : Nibble) : fieldY (wordXYD c x y d) = y := by
  have : nibbleY (wordXYD c x y d) = Reg.nibble y := by
    ext i hi
    simp [nibbleY, getLsbD_wordXYD, hi]
  simp [fieldY, this]

@[simp] theorem fieldD_wordXYD (c : Nibble) (x y : Reg) (d : Nibble) : fieldD (wordXYD c x y d) = d := by
  ext i hi
  simp [fieldD, getLsbD_wordXYD, hi]

/-- The two bytes of a word make the word (R60). -/
@[simp] theorem bytesWord_highByte_lowByte (w : Word) : bytesWord (highByte w) (lowByte w) = w := by
  ext i hi
  rw [← BitVec.getLsbD_eq_getElem, ← BitVec.getLsbD_eq_getElem, getLsbD_bytesWord]
  by_cases h : i < 8
  · simp [h, lowByte]
  · have h1 : 8 + (i - 8) = i := by omega
    have h2 : i - 8 < 8 := by omega
    simp [h, highByte, h1, h2]

end Sys2Proof
end

