-- ==== Sys2Proof/Laws/Display.lean ====
section
/-! SUPPORT. One pixel of the display after a toggle, a clear and a bit of a blit. -/

namespace Sys2Proof.Machine

@[simp] theorem Display.pixel_toggle (d : Display) (c c' : Fin 64) (r r' : Fin 32) :
    (d.toggle c r).pixel c' r' = if c' = c ∧ r' = r then !d.pixel c r else d.pixel c' r' := by
  simp only [Display.pixel, Display.toggle, Fin.getElem_fin, Vector.getElem_set, Fin.ext_iff]
  by_cases hr : (r : Nat) = r'
  · by_cases hc : (c : Nat) = c'
    · simp [hr, hc]
    · simp [hr, hc, Ne.symm hc]
  · simp [hr, Ne.symm hr]

@[simp] theorem Display.pixel_blank (c : Fin 64) (r : Fin 32) : Display.blank.pixel c r = false := by
  simp [Display.pixel, Display.blank]

/-- Two displays with the same pixels are the same. -/
theorem Display.ext_pixel {d e : Display} (h : ∀ c r, d.pixel c r = e.pixel c r) : d = e := by
  apply Vector.ext
  intro r hr
  apply Vector.ext
  intro c hc
  exact h ⟨c, hc⟩ ⟨r, hr⟩

/-- The columns of one sprite row fall on different columns of the display (R212). -/
theorem targetCol_injective {cx : Byte} {a b : Nat} (ha : a < 8) (hb : b < 8) (h : targetCol cx a = targetCol cx b) :
    a = b := by
  simp only [targetCol, Fin.ext_iff, Fin.val_ofNat] at h
  omega

/-- The rows of a sprite of at most 15 rows fall on different rows of the display (R212). -/
theorem targetRow_injective {cy : Byte} {a b : Nat} (ha : a < 15) (hb : b < 15) (h : targetRow cy a = targetRow cy b) :
    a = b := by
  simp only [targetRow, Fin.ext_iff, Fin.val_ofNat] at h
  omega

/-- A 0 bit changes nothing. -/
theorem blitBit_zero {row : Byte} {col : Nat} (h : row.getLsbD (7 - col) = false) (cx cy : Byte) (r : Nat)
    (acc : Display × Bool) : blitBit cx cy row r acc col = acc := by simp [blitBit, h]

/-- A 1 bit toggles its cell and records a collision where the cell was true. -/
theorem blitBit_one {row : Byte} {col : Nat} (h : row.getLsbD (7 - col) = true) (cx cy : Byte) (r : Nat)
    (acc : Display × Bool) : blitBit cx cy row r acc col =
      (acc.1.toggle (targetCol cx col) (targetRow cy r), acc.2 || acc.1.pixel (targetCol cx col) (targetRow cy r)) := by
  simp [blitBit, h]

@[simp] theorem Display.blit_nil (d : Display) (cx cy : Byte) : d.blit cx cy [] = (d, false) := rfl

end Sys2Proof.Machine
end

