-- ==== Sys2Proof/Laws/Flags.lean ====
section
/-! SUPPORT. Every flag is 0x00 or 0x01 (spec/42_alu.md R170), and when each is 1. -/

namespace Sys2Proof.Machine

@[simp] theorem flagOf_true : flagOf true = 0x01#8 := rfl
@[simp] theorem flagOf_false : flagOf false = 0x00#8 := rfl

theorem flagOf_zero_or_one (p : Bool) : flagOf p = 0x00#8 ∨ flagOf p = 0x01#8 := by cases p <;> simp

theorem flagOf_eq_one (p : Bool) : flagOf p = 0x01#8 ↔ p = true := by cases p <;> simp

theorem carryFlag_eq (a b : Byte) : carryFlag a b = if a.toNat + b.toNat > 255 then 0x01#8 else 0x00#8 := by
  simp [carryFlag, flagOf]

theorem notBorrowFlag_eq (a b : Byte) : notBorrowFlag a b = if a.toNat ≥ b.toNat then 0x01#8 else 0x00#8 := by
  simp [notBorrowFlag, flagOf]

/-- The bit a right shift moves out is the low bit. -/
theorem shiftOutLow_toNat (b : Byte) : (shiftOutLow b).toNat = b.toNat % 2 := by
  revert b; decide

/-- The bit a left shift moves out is the high bit. -/
theorem shiftOutHigh_toNat (b : Byte) : (shiftOutHigh b).toNat = b.toNat / 128 := by
  revert b; decide

end Sys2Proof.Machine
end

