-- ==== Sys2Proof/Laws/Memory.lean ====
section
/-! SUPPORT. The laws of memory: read after write, the canonical form kept by every operation, canonical memories equal when
they read alike, and what each access of several bytes answers. -/

namespace Sys2Proof.Machine.Memory

@[simp] theorem peek_nil (a : Nat) : peek [] a = resetByte a := rfl

theorem peek_cons (k : Nat) (b : Byte) (m : Memory) (a : Nat) :
    peek ((k, b) :: m) a = if k = a then b else peek m a := rfl

/-- An address below every listed one reads its reset contents. -/
theorem peek_eq_resetByte (m : Memory) (a : Nat) (h : ∀ e ∈ m, a ≠ e.1) : peek m a = resetByte a := by
  induction m with
  | nil => rfl
  | cons e m ih =>
    obtain ⟨k, b⟩ := e
    have hk : k ≠ a := fun hka => h (k, b) (by simp) hka.symm
    simp only [peek_cons, if_neg hk]
    exact ih fun e he => h e (by simp [he])

theorem peek_list_self (m : Memory) (a : Nat) (b : Byte) : peek (m.list a b) a = b := by
  induction m with
  | nil => simp [list, peek_cons]
  | cons e m ih =>
    obtain ⟨k, c⟩ := e
    simp only [list]
    split
    · simp [peek_cons]
    · split
      · simp [peek_cons]
      · rename_i h; simp [peek_cons, Ne.symm h, ih]

theorem peek_list_ne (m : Memory) {a a' : Nat} (b : Byte) (h : a' ≠ a) : peek (m.list a b) a' = peek m a' := by
  induction m with
  | nil => simp [list, peek_cons, Ne.symm h]
  | cons e m ih =>
    obtain ⟨k, c⟩ := e
    simp only [list]
    split
    · simp [peek_cons, Ne.symm h]
    · split
      · rename_i hk; subst hk; simp [peek_cons, Ne.symm h]
      · simp [peek_cons, ih]

theorem peek_unlist_ne (m : Memory) {a a' : Nat} (h : a' ≠ a) : peek (m.unlist a) a' = peek m a' := by
  induction m with
  | nil => rfl
  | cons e m ih =>
    obtain ⟨k, c⟩ := e
    simp only [unlist]
    split
    · rename_i hk; subst hk; simp [peek_cons, Ne.symm h]
    · simp [peek_cons, ih]

/-- In a canonical memory, an address taken out of the list reads its reset contents. -/
theorem peek_unlist_self (m : Memory) (a : Nat) (hm : m.Pairwise (fun p q => p.1 < q.1)) :
    peek (m.unlist a) a = resetByte a := by
  induction m with
  | nil => rfl
  | cons e m ih =>
    obtain ⟨k, c⟩ := e
    simp only [unlist]
    rw [List.pairwise_cons] at hm
    split
    · rename_i hk
      subst hk
      exact peek_eq_resetByte m k fun e he => Nat.ne_of_lt (hm.1 e he)
    · rename_i hk; simp [peek_cons, hk, ih hm.2]

/-- Read after write, at the address written. -/
theorem peek_poke_self (m : Memory) (a : Nat) (b : Byte) (hm : m.wf) : peek (m.poke a b) a = b := by
  unfold poke
  split
  · rename_i h; rw [peek_unlist_self m a hm.1, h]
  · exact peek_list_self m a b

/-- Read after write, at any other address. -/
theorem peek_poke_ne (m : Memory) {a a' : Nat} (b : Byte) (h : a' ≠ a) : peek (m.poke a b) a' = peek m a' := by
  unfold poke
  split
  · exact peek_unlist_ne m h
  · exact peek_list_ne m b h

theorem mem_list {m : Memory} {a : Nat} {b : Byte} {e : Host.Cell} (h : e ∈ m.list a b) : e = (a, b) ∨ e ∈ m := by
  induction m with
  | nil => simpa [list] using h
  | cons c m ih =>
    obtain ⟨k, d⟩ := c
    simp only [list] at h
    split at h
    · simpa using h
    · split at h
      · simp only [List.mem_cons] at h ⊢; tauto
      · simp only [List.mem_cons] at h ⊢
        rcases h with h | h
        · exact .inr (.inl h)
        · rcases ih h with h | h
          · exact .inl h
          · exact .inr (.inr h)

theorem mem_of_mem_unlist {m : Memory} {a : Nat} {e : Host.Cell} (h : e ∈ m.unlist a) : e ∈ m := by
  induction m with
  | nil => simp [unlist] at h
  | cons c m ih =>
    obtain ⟨k, d⟩ := c
    simp only [unlist] at h
    split at h
    · simp [h]
    · simp only [List.mem_cons] at h ⊢; exact h.imp_right ih

theorem list_pairwise (m : Memory) (a : Nat) (b : Byte) (hm : m.Pairwise (fun p q => p.1 < q.1)) :
    (m.list a b).Pairwise (fun p q => p.1 < q.1) := by
  induction m with
  | nil => simp [list]
  | cons c m ih =>
    obtain ⟨k, d⟩ := c
    rw [List.pairwise_cons] at hm
    simp only [list]
    split
    · rename_i hak
      refine List.pairwise_cons.2 ⟨fun e he => ?_, List.pairwise_cons.2 hm⟩
      rcases List.mem_cons.1 he with rfl | he
      · exact hak
      · exact Nat.lt_trans hak (hm.1 e he)
    · split
      · rename_i hak; subst hak; exact List.pairwise_cons.2 hm
      · refine List.pairwise_cons.2 ⟨fun e he => ?_, ih hm.2⟩
        rcases mem_list he with rfl | he
        · show k < a; omega
        · exact hm.1 e he

theorem unlist_pairwise (m : Memory) (a : Nat) (hm : m.Pairwise (fun p q => p.1 < q.1)) :
    (m.unlist a).Pairwise (fun p q => p.1 < q.1) := by
  induction m with
  | nil => simp [unlist]
  | cons c m ih =>
    obtain ⟨k, d⟩ := c
    rw [List.pairwise_cons] at hm
    simp only [unlist]
    split
    · exact hm.2
    · exact List.pairwise_cons.2 ⟨fun e he => hm.1 e (mem_of_mem_unlist he), ih hm.2⟩

theorem nil_wf : wf [] := by simp [wf]

/-- A write of an address that exists keeps the canonical form. -/
theorem poke_wf (m : Memory) (a : Nat) (b : Byte) (hm : m.wf) (ha : a < Config.memSize) : (m.poke a b).wf := by
  unfold poke
  split
  · exact ⟨unlist_pairwise m a hm.1, fun e he => hm.2 e (mem_of_mem_unlist he)⟩
  · rename_i hb
    refine ⟨list_pairwise m a b hm.1, fun e he => ?_⟩
    rcases mem_list he with rfl | he
    · exact ⟨ha, hb⟩
    · exact hm.2 e he

/-- In a canonical memory an entry says what its address reads as. -/
theorem peek_of_mem {m : Memory} (hm : m.Pairwise (fun p q => p.1 < q.1)) {a : Nat} {b : Byte} (h : (a, b) ∈ m) :
    peek m a = b := by
  induction m with
  | nil => simp at h
  | cons c m ih =>
    obtain ⟨k, d⟩ := c
    rw [List.pairwise_cons] at hm
    rcases List.mem_cons.1 h with h | h
    · cases h; simp [peek_cons]
    · have : k ≠ a := Nat.ne_of_lt (hm.1 _ h)
      simp [peek_cons, this, ih hm.2 h]

/-- An address that does not read as its reset contents is listed. -/
theorem mem_of_peek {m : Memory} {a : Nat} (h : peek m a ≠ resetByte a) : (a, peek m a) ∈ m := by
  induction m with
  | nil => simp at h
  | cons c m ih =>
    obtain ⟨k, d⟩ := c
    by_cases hk : k = a
    · subst hk; simp [peek_cons]
    · simp only [peek_cons, if_neg hk] at h ⊢
      exact List.mem_cons_of_mem _ (ih h)

theorem readByte_ok {m : Memory} {a : Nat} (h : a < 0x1000) : m.readByte a = .ok (m.peek a) := by
  simp [readByte, Config.memSize, h]

theorem readByte_error {m : Memory} {a : Nat} (h : 0x1000 ≤ a) : m.readByte a = .error (.memoryOutOfBounds a) := by
  simp [readByte, Config.memSize, Nat.not_lt.2 h]

theorem writeByte_ok {m : Memory} {a : Nat} (b : Byte) (h : a < 0x1000) : m.writeByte a b = .ok (m.poke a b) := by
  simp [writeByte, Config.memSize, h]

theorem writeByte_error {m : Memory} {a : Nat} (b : Byte) (h : 0x1000 ≤ a) :
    m.writeByte a b = .error (.memoryOutOfBounds a) := by
  simp [writeByte, Config.memSize, Nat.not_lt.2 h]

/-- Reading `n` bytes that all exist gives them in order. -/
theorem readBytes_ok (m : Memory) (base n : Nat) (h : n = 0 ∨ base + n ≤ 0x1000) :
    m.readBytes base n = .ok ((List.range n).map fun k => m.peek (base + k)) := by
  induction n generalizing base with
  | zero => rfl
  | succ n ih =>
    have hb : base < 0x1000 := by omega
    simp [readBytes, readByte_ok hb, ih (base + 1) (by omega), List.range_succ_eq_map, Nat.add_assoc, Nat.add_comm 1]

/-- Reading past the end reports the first address above 0xFFF: the base, or 0x1000. -/
theorem readBytes_error (m : Memory) (base n : Nat) (hn : 0 < n) (h : 0x1000 < base + n) :
    m.readBytes base n = .error (.memoryOutOfBounds (max base 0x1000)) := by
  induction n generalizing base with
  | zero => omega
  | succ n ih =>
    by_cases hb : base < 0x1000
    · have hrec := ih (base + 1) (by omega) (by omega)
      have : max (base + 1) 0x1000 = max base 0x1000 := by omega
      simp [readBytes, readByte_ok hb, hrec, this]
    · have : max base 0x1000 = base := by omega
      simp [readBytes, readByte_error (Nat.not_lt.1 hb), this]

/-- Writing bytes whose addresses all exist succeeds, keeps the canonical form, stores each byte at its address and leaves
every other address as it was. -/
theorem writeBytes_ok (m : Memory) (base : Nat) (bs : List Byte) (hm : m.wf) (h : bs = [] ∨ base + bs.length ≤ 0x1000) :
    ∃ m', m.writeBytes base bs = .ok m' ∧ m'.wf ∧ (∀ k (hk : k < bs.length), m'.peek (base + k) = bs[k]) ∧
      ∀ a, (a < base ∨ base + bs.length ≤ a) → m'.peek a = m.peek a := by
  induction bs generalizing m base with
  | nil => exact ⟨m, rfl, hm, by simp, by simp⟩
  | cons b bs ih =>
    simp only [List.length_cons, reduceCtorEq, false_or] at h
    have hb : base < 0x1000 := by omega
    obtain ⟨m', hw, hwf, hin, hout⟩ := ih (m.poke base b) (base + 1) (poke_wf m base b hm hb) (by omega)
    refine ⟨m', by simp [writeBytes, writeByte_ok b hb, hw], hwf, fun k hk => ?_, fun a ha => ?_⟩
    · cases k with
      | zero => simpa [peek_poke_self m base b hm] using hout base (by omega)
      | succ k =>
        have := hin k (by simpa using hk)
        simpa [Nat.add_assoc, Nat.add_comm 1] using this
    · simp only [List.length_cons] at ha
      rw [hout a (by omega), peek_poke_ne m b (by omega)]

/-- A write that succeeds keeps the canonical form. -/
theorem writeByte_wf {m m' : Memory} {a : Nat} {b : Byte} (hm : m.wf) (h : m.writeByte a b = .ok m') : m'.wf := by
  by_cases ha : a < 0x1000
  · rw [writeByte_ok b ha] at h
    cases h
    exact poke_wf m a b hm ha
  · rw [writeByte_error b (Nat.not_lt.1 ha)] at h
    cases h

/-- Writes in ascending order that succeed keep the canonical form. -/
theorem writeBytes_wf {m m' : Memory} {base : Nat} {bs : List Byte} (hm : m.wf) (h : m.writeBytes base bs = .ok m') :
    m'.wf := by
  induction bs generalizing m base with
  | nil => cases h; exact hm
  | cons b bs ih =>
    cases hw : m.writeByte base b with
    | error f => simp [writeBytes, hw] at h
    | ok m₁ =>
      rw [writeBytes, hw] at h
      exact ih (writeByte_wf hm hw) h

/-- Writing past the end reports the first address above 0xFFF: the base, or 0x1000. -/
theorem writeBytes_error (m : Memory) (base : Nat) (bs : List Byte) (hn : bs ≠ []) (h : 0x1000 < base + bs.length) :
    m.writeBytes base bs = .error (.memoryOutOfBounds (max base 0x1000)) := by
  induction bs generalizing m base with
  | nil => exact absurd rfl hn
  | cons b bs ih =>
    simp only [List.length_cons] at h
    by_cases hb : base < 0x1000
    · have hne : bs ≠ [] := by rintro rfl; simp at h; omega
      have hrec := ih (m.poke base b) (base + 1) hne (by omega)
      have : max (base + 1) 0x1000 = max base 0x1000 := by omega
      simp [writeBytes, writeByte_ok b hb, hrec, this]
    · have : max base 0x1000 = base := by omega
      simp [writeBytes, writeByte_error b (Nat.not_lt.1 hb), this]

/-- The word at an address whose two bytes exist. -/
theorem fetch16_ok (m : Memory) (a : Nat) (h : a + 1 < 0x1000) :
    m.fetch16 a = .ok (bytesWord (m.peek a) (m.peek (a + 1))) := by
  simp [fetch16, readByte_ok (show a < 0x1000 by omega), readByte_ok h]

/-- A fetch that cannot be made reports the first address above 0xFFF. -/
theorem fetch16_error (m : Memory) (a : Nat) (h : 0x1000 ≤ a + 1) :
    m.fetch16 a = .error (.memoryOutOfBounds (max a 0x1000)) := by
  by_cases ha : a < 0x1000
  · have : max a 0x1000 = a + 1 := by omega
    simp [fetch16, readByte_ok ha, readByte_error h, this]
  · have : max a 0x1000 = a := by omega
    simp [fetch16, readByte_error (Nat.not_lt.1 ha), this]

end Sys2Proof.Machine.Memory
end

