-- ==== Sys2Proof/Laws/State.lean ====
section
/-! SUPPORT. One lemma per field per update of State, each true by rfl, so that no proof unfolds a record update. -/

namespace Sys2Proof.Machine.State

@[simp] theorem setReg_v (s : State) (r : Reg) (b : Byte) : (s.setReg r b).v = s.v.set r b := rfl
@[simp] theorem setReg_i (s : State) (r : Reg) (b : Byte) : (s.setReg r b).i = s.i := rfl
@[simp] theorem setReg_pc (s : State) (r : Reg) (b : Byte) : (s.setReg r b).pc = s.pc := rfl
@[simp] theorem setReg_stack (s : State) (r : Reg) (b : Byte) : (s.setReg r b).stack = s.stack := rfl
@[simp] theorem setReg_dt (s : State) (r : Reg) (b : Byte) : (s.setReg r b).dt = s.dt := rfl
@[simp] theorem setReg_mem (s : State) (r : Reg) (b : Byte) : (s.setReg r b).mem = s.mem := rfl
@[simp] theorem setReg_disp (s : State) (r : Reg) (b : Byte) : (s.setReg r b).disp = s.disp := rfl
@[simp] theorem setReg_run (s : State) (r : Reg) (b : Byte) : (s.setReg r b).run = s.run := rfl
@[simp] theorem setReg_stackDepth (s : State) (r : Reg) (b : Byte) : (s.setReg r b).stackDepth = s.stackDepth := rfl
@[simp] theorem setReg_draws (s : State) (r : Reg) (b : Byte) : (s.setReg r b).draws = s.draws := rfl

@[simp] theorem setFlag_v (s : State) (f : Byte) : (s.setFlag f).v = s.v.set vf f := rfl
@[simp] theorem setFlag_i (s : State) (f : Byte) : (s.setFlag f).i = s.i := rfl
@[simp] theorem setFlag_pc (s : State) (f : Byte) : (s.setFlag f).pc = s.pc := rfl
@[simp] theorem setFlag_stack (s : State) (f : Byte) : (s.setFlag f).stack = s.stack := rfl
@[simp] theorem setFlag_dt (s : State) (f : Byte) : (s.setFlag f).dt = s.dt := rfl
@[simp] theorem setFlag_mem (s : State) (f : Byte) : (s.setFlag f).mem = s.mem := rfl
@[simp] theorem setFlag_disp (s : State) (f : Byte) : (s.setFlag f).disp = s.disp := rfl
@[simp] theorem setFlag_run (s : State) (f : Byte) : (s.setFlag f).run = s.run := rfl
@[simp] theorem setFlag_stackDepth (s : State) (f : Byte) : (s.setFlag f).stackDepth = s.stackDepth := rfl
@[simp] theorem setFlag_draws (s : State) (f : Byte) : (s.setFlag f).draws = s.draws := rfl

@[simp] theorem setRegs_v (s : State) (t : List Byte) : (s.setRegs t).v = s.v.mapIdx fun k old => t.getD k old := rfl
@[simp] theorem setRegs_i (s : State) (t : List Byte) : (s.setRegs t).i = s.i := rfl
@[simp] theorem setRegs_pc (s : State) (t : List Byte) : (s.setRegs t).pc = s.pc := rfl
@[simp] theorem setRegs_stack (s : State) (t : List Byte) : (s.setRegs t).stack = s.stack := rfl
@[simp] theorem setRegs_dt (s : State) (t : List Byte) : (s.setRegs t).dt = s.dt := rfl
@[simp] theorem setRegs_mem (s : State) (t : List Byte) : (s.setRegs t).mem = s.mem := rfl
@[simp] theorem setRegs_disp (s : State) (t : List Byte) : (s.setRegs t).disp = s.disp := rfl
@[simp] theorem setRegs_run (s : State) (t : List Byte) : (s.setRegs t).run = s.run := rfl
@[simp] theorem setRegs_stackDepth (s : State) (t : List Byte) : (s.setRegs t).stackDepth = s.stackDepth := rfl
@[simp] theorem setRegs_draws (s : State) (t : List Byte) : (s.setRegs t).draws = s.draws := rfl

@[simp] theorem setIndex_v (s : State) (a : Addr) : (s.setIndex a).v = s.v := rfl
@[simp] theorem setIndex_i (s : State) (a : Addr) : (s.setIndex a).i = a := rfl
@[simp] theorem setIndex_pc (s : State) (a : Addr) : (s.setIndex a).pc = s.pc := rfl
@[simp] theorem setIndex_stack (s : State) (a : Addr) : (s.setIndex a).stack = s.stack := rfl
@[simp] theorem setIndex_dt (s : State) (a : Addr) : (s.setIndex a).dt = s.dt := rfl
@[simp] theorem setIndex_mem (s : State) (a : Addr) : (s.setIndex a).mem = s.mem := rfl
@[simp] theorem setIndex_disp (s : State) (a : Addr) : (s.setIndex a).disp = s.disp := rfl
@[simp] theorem setIndex_run (s : State) (a : Addr) : (s.setIndex a).run = s.run := rfl
@[simp] theorem setIndex_stackDepth (s : State) (a : Addr) : (s.setIndex a).stackDepth = s.stackDepth := rfl
@[simp] theorem setIndex_draws (s : State) (a : Addr) : (s.setIndex a).draws = s.draws := rfl

@[simp] theorem setPc_v (s : State) (a : Addr) : (s.setPc a).v = s.v := rfl
@[simp] theorem setPc_i (s : State) (a : Addr) : (s.setPc a).i = s.i := rfl
@[simp] theorem setPc_pc (s : State) (a : Addr) : (s.setPc a).pc = a := rfl
@[simp] theorem setPc_stack (s : State) (a : Addr) : (s.setPc a).stack = s.stack := rfl
@[simp] theorem setPc_dt (s : State) (a : Addr) : (s.setPc a).dt = s.dt := rfl
@[simp] theorem setPc_mem (s : State) (a : Addr) : (s.setPc a).mem = s.mem := rfl
@[simp] theorem setPc_disp (s : State) (a : Addr) : (s.setPc a).disp = s.disp := rfl
@[simp] theorem setPc_run (s : State) (a : Addr) : (s.setPc a).run = s.run := rfl
@[simp] theorem setPc_stackDepth (s : State) (a : Addr) : (s.setPc a).stackDepth = s.stackDepth := rfl
@[simp] theorem setPc_draws (s : State) (a : Addr) : (s.setPc a).draws = s.draws := rfl

@[simp] theorem setStack_v (s : State) (st : List Addr) : (s.setStack st).v = s.v := rfl
@[simp] theorem setStack_i (s : State) (st : List Addr) : (s.setStack st).i = s.i := rfl
@[simp] theorem setStack_pc (s : State) (st : List Addr) : (s.setStack st).pc = s.pc := rfl
@[simp] theorem setStack_stack (s : State) (st : List Addr) : (s.setStack st).stack = st := rfl
@[simp] theorem setStack_dt (s : State) (st : List Addr) : (s.setStack st).dt = s.dt := rfl
@[simp] theorem setStack_mem (s : State) (st : List Addr) : (s.setStack st).mem = s.mem := rfl
@[simp] theorem setStack_disp (s : State) (st : List Addr) : (s.setStack st).disp = s.disp := rfl
@[simp] theorem setStack_run (s : State) (st : List Addr) : (s.setStack st).run = s.run := rfl
@[simp] theorem setStack_stackDepth (s : State) (st : List Addr) : (s.setStack st).stackDepth = s.stackDepth := rfl
@[simp] theorem setStack_draws (s : State) (st : List Addr) : (s.setStack st).draws = s.draws := rfl

@[simp] theorem setMem_v (s : State) (m : Memory) : (s.setMem m).v = s.v := rfl
@[simp] theorem setMem_i (s : State) (m : Memory) : (s.setMem m).i = s.i := rfl
@[simp] theorem setMem_pc (s : State) (m : Memory) : (s.setMem m).pc = s.pc := rfl
@[simp] theorem setMem_stack (s : State) (m : Memory) : (s.setMem m).stack = s.stack := rfl
@[simp] theorem setMem_dt (s : State) (m : Memory) : (s.setMem m).dt = s.dt := rfl
@[simp] theorem setMem_mem (s : State) (m : Memory) : (s.setMem m).mem = m := rfl
@[simp] theorem setMem_disp (s : State) (m : Memory) : (s.setMem m).disp = s.disp := rfl
@[simp] theorem setMem_run (s : State) (m : Memory) : (s.setMem m).run = s.run := rfl
@[simp] theorem setMem_stackDepth (s : State) (m : Memory) : (s.setMem m).stackDepth = s.stackDepth := rfl
@[simp] theorem setMem_draws (s : State) (m : Memory) : (s.setMem m).draws = s.draws := rfl

@[simp] theorem setDisp_v (s : State) (d : Display) : (s.setDisp d).v = s.v := rfl
@[simp] theorem setDisp_i (s : State) (d : Display) : (s.setDisp d).i = s.i := rfl
@[simp] theorem setDisp_pc (s : State) (d : Display) : (s.setDisp d).pc = s.pc := rfl
@[simp] theorem setDisp_stack (s : State) (d : Display) : (s.setDisp d).stack = s.stack := rfl
@[simp] theorem setDisp_dt (s : State) (d : Display) : (s.setDisp d).dt = s.dt := rfl
@[simp] theorem setDisp_mem (s : State) (d : Display) : (s.setDisp d).mem = s.mem := rfl
@[simp] theorem setDisp_disp (s : State) (d : Display) : (s.setDisp d).disp = d := rfl
@[simp] theorem setDisp_run (s : State) (d : Display) : (s.setDisp d).run = s.run := rfl
@[simp] theorem setDisp_stackDepth (s : State) (d : Display) : (s.setDisp d).stackDepth = s.stackDepth := rfl
@[simp] theorem setDisp_draws (s : State) (d : Display) : (s.setDisp d).draws = s.draws := rfl

@[simp] theorem setDt_v (s : State) (b : Byte) : (s.setDt b).v = s.v := rfl
@[simp] theorem setDt_i (s : State) (b : Byte) : (s.setDt b).i = s.i := rfl
@[simp] theorem setDt_pc (s : State) (b : Byte) : (s.setDt b).pc = s.pc := rfl
@[simp] theorem setDt_stack (s : State) (b : Byte) : (s.setDt b).stack = s.stack := rfl
@[simp] theorem setDt_dt (s : State) (b : Byte) : (s.setDt b).dt = b := rfl
@[simp] theorem setDt_mem (s : State) (b : Byte) : (s.setDt b).mem = s.mem := rfl
@[simp] theorem setDt_disp (s : State) (b : Byte) : (s.setDt b).disp = s.disp := rfl
@[simp] theorem setDt_run (s : State) (b : Byte) : (s.setDt b).run = s.run := rfl
@[simp] theorem setDt_stackDepth (s : State) (b : Byte) : (s.setDt b).stackDepth = s.stackDepth := rfl
@[simp] theorem setDt_draws (s : State) (b : Byte) : (s.setDt b).draws = s.draws := rfl

@[simp] theorem setRun_v (s : State) (r : RunState) : (s.setRun r).v = s.v := rfl
@[simp] theorem setRun_i (s : State) (r : RunState) : (s.setRun r).i = s.i := rfl
@[simp] theorem setRun_pc (s : State) (r : RunState) : (s.setRun r).pc = s.pc := rfl
@[simp] theorem setRun_stack (s : State) (r : RunState) : (s.setRun r).stack = s.stack := rfl
@[simp] theorem setRun_dt (s : State) (r : RunState) : (s.setRun r).dt = s.dt := rfl
@[simp] theorem setRun_mem (s : State) (r : RunState) : (s.setRun r).mem = s.mem := rfl
@[simp] theorem setRun_disp (s : State) (r : RunState) : (s.setRun r).disp = s.disp := rfl
@[simp] theorem setRun_run (s : State) (r : RunState) : (s.setRun r).run = r := rfl
@[simp] theorem setRun_stackDepth (s : State) (r : RunState) : (s.setRun r).stackDepth = s.stackDepth := rfl
@[simp] theorem setRun_draws (s : State) (r : RunState) : (s.setRun r).draws = s.draws := rfl

@[simp] theorem countDraw_v (s : State) : (s.countDraw).v = s.v := rfl
@[simp] theorem countDraw_i (s : State) : (s.countDraw).i = s.i := rfl
@[simp] theorem countDraw_pc (s : State) : (s.countDraw).pc = s.pc := rfl
@[simp] theorem countDraw_stack (s : State) : (s.countDraw).stack = s.stack := rfl
@[simp] theorem countDraw_dt (s : State) : (s.countDraw).dt = s.dt := rfl
@[simp] theorem countDraw_mem (s : State) : (s.countDraw).mem = s.mem := rfl
@[simp] theorem countDraw_disp (s : State) : (s.countDraw).disp = s.disp := rfl
@[simp] theorem countDraw_run (s : State) : (s.countDraw).run = s.run := rfl
@[simp] theorem countDraw_stackDepth (s : State) : (s.countDraw).stackDepth = s.stackDepth := rfl
@[simp] theorem countDraw_draws (s : State) : (s.countDraw).draws = s.draws + 1 := rfl

@[simp] theorem skip_v (s : State) : (s.skip).v = s.v := rfl
@[simp] theorem skip_i (s : State) : (s.skip).i = s.i := rfl
@[simp] theorem skip_pc (s : State) : (s.skip).pc = s.pc + 2#16 := rfl
@[simp] theorem skip_stack (s : State) : (s.skip).stack = s.stack := rfl
@[simp] theorem skip_dt (s : State) : (s.skip).dt = s.dt := rfl
@[simp] theorem skip_mem (s : State) : (s.skip).mem = s.mem := rfl
@[simp] theorem skip_disp (s : State) : (s.skip).disp = s.disp := rfl
@[simp] theorem skip_run (s : State) : (s.skip).run = s.run := rfl
@[simp] theorem skip_stackDepth (s : State) : (s.skip).stackDepth = s.stackDepth := rfl
@[simp] theorem skip_draws (s : State) : (s.skip).draws = s.draws := rfl

@[simp] theorem advance_v (s : State) : (s.advance).v = s.v := rfl
@[simp] theorem advance_i (s : State) : (s.advance).i = s.i := rfl
@[simp] theorem advance_pc (s : State) : (s.advance).pc = s.pc + 2#16 := rfl
@[simp] theorem advance_stack (s : State) : (s.advance).stack = s.stack := rfl
@[simp] theorem advance_dt (s : State) : (s.advance).dt = s.dt := rfl
@[simp] theorem advance_mem (s : State) : (s.advance).mem = s.mem := rfl
@[simp] theorem advance_disp (s : State) : (s.advance).disp = s.disp := rfl
@[simp] theorem advance_run (s : State) : (s.advance).run = s.run := rfl
@[simp] theorem advance_stackDepth (s : State) : (s.advance).stackDepth = s.stackDepth := rfl
@[simp] theorem advance_draws (s : State) : (s.advance).draws = s.draws := rfl

@[simp] theorem takeFault_v (s : State) (f : Fault) : (s.takeFault f).v = s.v := rfl
@[simp] theorem takeFault_i (s : State) (f : Fault) : (s.takeFault f).i = s.i := rfl
@[simp] theorem takeFault_pc (s : State) (f : Fault) : (s.takeFault f).pc = s.pc := rfl
@[simp] theorem takeFault_stack (s : State) (f : Fault) : (s.takeFault f).stack = s.stack := rfl
@[simp] theorem takeFault_dt (s : State) (f : Fault) : (s.takeFault f).dt = s.dt := rfl
@[simp] theorem takeFault_mem (s : State) (f : Fault) : (s.takeFault f).mem = s.mem := rfl
@[simp] theorem takeFault_disp (s : State) (f : Fault) : (s.takeFault f).disp = s.disp := rfl
@[simp] theorem takeFault_run (s : State) (f : Fault) : (s.takeFault f).run = .faulted f := rfl
@[simp] theorem takeFault_stackDepth (s : State) (f : Fault) : (s.takeFault f).stackDepth = s.stackDepth := rfl
@[simp] theorem takeFault_draws (s : State) (f : Fault) : (s.takeFault f).draws = s.draws := rfl

end Sys2Proof.Machine.State
end

