-- ==== Sys2Proof/Laws/Registers.lean ====
section
/-! SUPPORT. What a register reads after each write of a register. -/

namespace Sys2Proof.Machine

theorem State.reg_eq (s : State) (k : Reg) : s.reg k = s.v[k] := rfl

/-- A read of a register sees the registers only. -/
theorem State.reg_congr {s t : State} (h : t.v = s.v) (k : Reg) : t.reg k = s.reg k := by simp [State.reg, h]

@[simp] theorem State.reg_setReg (s : State) (r k : Reg) (b : Byte) :
    (s.setReg r b).reg k = if k = r then b else s.reg k := by
  simp only [State.reg, State.setReg_v, Fin.getElem_fin, Vector.getElem_set, Fin.ext_iff, eq_comm]

@[simp] theorem State.reg_setFlag (s : State) (k : Reg) (f : Byte) :
    (s.setFlag f).reg k = if k = vf then f else s.reg k := State.reg_setReg s vf k f

/-- The flag is written last: it is what VF holds, whatever the destination (R171). -/
@[simp] theorem State.reg_setResult (s : State) (x k : Reg) (result flag : Byte) :
    (s.setResult x result flag).reg k = if k = vf then flag else if k = x then result else s.reg k := by
  simp [State.setResult]

@[simp] theorem State.reg_setRegs (s : State) (t : List Byte) (k : Reg) :
    (s.setRegs t).reg k = t.getD k.val (s.reg k) := by
  simp [State.reg]

@[simp] theorem State.reg_setIndex (s : State) (a : Addr) (k : Reg) : (s.setIndex a).reg k = s.reg k := rfl
@[simp] theorem State.reg_setPc (s : State) (a : Addr) (k : Reg) : (s.setPc a).reg k = s.reg k := rfl
@[simp] theorem State.reg_setStack (s : State) (st : List Addr) (k : Reg) : (s.setStack st).reg k = s.reg k := rfl
@[simp] theorem State.reg_setMem (s : State) (m : Memory) (k : Reg) : (s.setMem m).reg k = s.reg k := rfl
@[simp] theorem State.reg_setDisp (s : State) (d : Display) (k : Reg) : (s.setDisp d).reg k = s.reg k := rfl
@[simp] theorem State.reg_takeFault (s : State) (f : Fault) (k : Reg) : (s.takeFault f).reg k = s.reg k := rfl
@[simp] theorem State.reg_countDraw (s : State) (k : Reg) : s.countDraw.reg k = s.reg k := rfl
@[simp] theorem State.reg_setDt (s : State) (b : Byte) (k : Reg) : (s.setDt b).reg k = s.reg k := rfl
@[simp] theorem State.reg_setRun (s : State) (r : RunState) (k : Reg) : (s.setRun r).reg k = s.reg k := rfl
@[simp] theorem State.reg_skip (s : State) (k : Reg) : s.skip.reg k = s.reg k := rfl
@[simp] theorem State.reg_advance (s : State) (k : Reg) : s.advance.reg k = s.reg k := rfl

/-- The registers V0..Vx as a list: entry `k` is `V[k]`. -/
theorem State.regsUpTo_getElem? (s : State) (x k : Reg) (h : k ≤ x) : (s.regsUpTo x)[k.val]? = some (s.reg k) := by
  have hk : k.val < x.val + 1 := Nat.lt_succ_of_le h
  simp [State.regsUpTo, State.reg, hk]

@[simp] theorem State.regsUpTo_length (s : State) (x : Reg) : (s.regsUpTo x).length = x.val + 1 := by
  simp [State.regsUpTo]

end Sys2Proof.Machine
end

