-- ==== Sys2Proof/Laws/Ops.lean ====
section
/-! SUPPORT. What each shared operation can do, said once. -/

namespace Sys2Proof.Machine

@[simp] theorem State.settle_ok (s t : State) : s.settle (.ok t) = t := rfl
@[simp] theorem State.settle_error (s : State) (f : Fault) : s.settle (.error f) = s.takeFault f := rfl

/-- An instruction that may fault always answers a next state. -/
theorem State.attempt_eq (s : State) (r : Except Fault State) : s.attempt r = .next (s.settle r) := rfl

/-- The stack is full exactly at the finite limit (R25). -/
theorem State.stackFull_iff (s : State) : s.stackFull = true ↔ s.stackDepth = some s.stack.length := by
  simp [State.stackFull, State.depth]

theorem State.push_full {s : State} (a : Addr) (h : s.stackDepth = some s.stack.length) :
    s.push a = .error (.stackOverflow a) := by
  simp [State.push, s.stackFull_iff.2 h]

theorem State.push_room {s : State} (a : Addr) (h : s.stackDepth ≠ some s.stack.length) :
    s.push a = .ok (s.setStack (s.stack ++ [a])) := by
  have : ¬ s.stackFull = true := fun hf => h (s.stackFull_iff.1 hf)
  simp [State.push, this]

theorem State.popPc_empty {s : State} (h : s.stack = []) : s.popPc = .error .stackUnderflow := by
  simp [State.popPc, h]

theorem State.popPc_append {s : State} {st : List Addr} {a : Addr} (h : s.stack = st ++ [a]) :
    s.popPc = .ok ((s.setStack st).setPc a) := by
  simp [State.popPc, h]

/-- A store through `I` of bytes that all exist: memory alone changes, as the write of those bytes changes it. -/
theorem State.storeAtIndex_ok (s : State) (bs : List Byte) (hm : s.mem.wf) (h : bs = [] ∨ s.i.toNat + bs.length ≤ 0x1000) :
    ∃ m', s.storeAtIndex bs = .ok (s.setMem m') ∧ m'.wf ∧
      (∀ k (hk : k < bs.length), m'.peek (s.i.toNat + k) = bs[k]) ∧
      ∀ a, (a < s.i.toNat ∨ s.i.toNat + bs.length ≤ a) → m'.peek a = s.mem.peek a := by
  obtain ⟨m', hw, rest⟩ := Memory.writeBytes_ok s.mem s.i.toNat bs hm h
  exact ⟨m', by simp [State.storeAtIndex, State.base, hw, Except.map], rest⟩

/-- A store through `I` that runs past the end raises the fault of the first address above 0xFFF. -/
theorem State.storeAtIndex_error (s : State) (bs : List Byte) (hn : bs ≠ []) (h : 0x1000 < s.i.toNat + bs.length) :
    s.storeAtIndex bs = .error (.memoryOutOfBounds (max s.i.toNat 0x1000)) := by
  simp [State.storeAtIndex, State.base, Memory.writeBytes_error s.mem s.i.toNat bs hn h, Except.map]

/-- A skip changes `PC` alone. -/
@[simp] theorem State.skipIf_pc (s : State) (p : Bool) : (s.skipIf p).pc = if p then s.pc + 2#16 else s.pc := by
  cases p <;> rfl
@[simp] theorem State.skipIf_v (s : State) (p : Bool) : (s.skipIf p).v = s.v := by cases p <;> rfl
@[simp] theorem State.skipIf_i (s : State) (p : Bool) : (s.skipIf p).i = s.i := by cases p <;> rfl
@[simp] theorem State.skipIf_stack (s : State) (p : Bool) : (s.skipIf p).stack = s.stack := by cases p <;> rfl
@[simp] theorem State.skipIf_dt (s : State) (p : Bool) : (s.skipIf p).dt = s.dt := by cases p <;> rfl
@[simp] theorem State.skipIf_mem (s : State) (p : Bool) : (s.skipIf p).mem = s.mem := by cases p <;> rfl
@[simp] theorem State.skipIf_disp (s : State) (p : Bool) : (s.skipIf p).disp = s.disp := by cases p <;> rfl
@[simp] theorem State.skipIf_run (s : State) (p : Bool) : (s.skipIf p).run = s.run := by cases p <;> rfl
@[simp] theorem State.skipIf_stackDepth (s : State) (p : Bool) : (s.skipIf p).stackDepth = s.stackDepth := by cases p <;> rfl
@[simp] theorem State.skipIf_draws (s : State) (p : Bool) : (s.skipIf p).draws = s.draws := by cases p <;> rfl
@[simp] theorem State.reg_skipIf (s : State) (p : Bool) (k : Reg) : (s.skipIf p).reg k = s.reg k := by cases p <;> rfl

/-! A result with its flag, and a random draw, change the registers (and the count of draws) alone. -/

@[simp] theorem State.setResult_i (s : State) (x : Reg) (r f : Byte) : (s.setResult x r f).i = s.i := rfl
@[simp] theorem State.setResult_pc (s : State) (x : Reg) (r f : Byte) : (s.setResult x r f).pc = s.pc := rfl
@[simp] theorem State.setResult_stack (s : State) (x : Reg) (r f : Byte) : (s.setResult x r f).stack = s.stack := rfl
@[simp] theorem State.setResult_dt (s : State) (x : Reg) (r f : Byte) : (s.setResult x r f).dt = s.dt := rfl
@[simp] theorem State.setResult_mem (s : State) (x : Reg) (r f : Byte) : (s.setResult x r f).mem = s.mem := rfl
@[simp] theorem State.setResult_disp (s : State) (x : Reg) (r f : Byte) : (s.setResult x r f).disp = s.disp := rfl
@[simp] theorem State.setResult_run (s : State) (x : Reg) (r f : Byte) : (s.setResult x r f).run = s.run := rfl
@[simp] theorem State.setResult_stackDepth (s : State) (x : Reg) (r f : Byte) : (s.setResult x r f).stackDepth = s.stackDepth := rfl
@[simp] theorem State.setResult_draws (s : State) (x : Reg) (r f : Byte) : (s.setResult x r f).draws = s.draws := rfl

@[simp] theorem randomWith_i (r : Byte) (x : Reg) (kk : Byte) (s : State) : (randomWith r x kk s).i = s.i := rfl
@[simp] theorem randomWith_pc (r : Byte) (x : Reg) (kk : Byte) (s : State) : (randomWith r x kk s).pc = s.pc := rfl
@[simp] theorem randomWith_stack (r : Byte) (x : Reg) (kk : Byte) (s : State) : (randomWith r x kk s).stack = s.stack := rfl
@[simp] theorem randomWith_dt (r : Byte) (x : Reg) (kk : Byte) (s : State) : (randomWith r x kk s).dt = s.dt := rfl
@[simp] theorem randomWith_mem (r : Byte) (x : Reg) (kk : Byte) (s : State) : (randomWith r x kk s).mem = s.mem := rfl
@[simp] theorem randomWith_disp (r : Byte) (x : Reg) (kk : Byte) (s : State) : (randomWith r x kk s).disp = s.disp := rfl
@[simp] theorem randomWith_run (r : Byte) (x : Reg) (kk : Byte) (s : State) : (randomWith r x kk s).run = s.run := rfl
@[simp] theorem randomWith_stackDepth (r : Byte) (x : Reg) (kk : Byte) (s : State) : (randomWith r x kk s).stackDepth = s.stackDepth := rfl
@[simp] theorem randomWith_draws (r : Byte) (x : Reg) (kk : Byte) (s : State) : (randomWith r x kk s).draws = s.draws + 1 := rfl
@[simp] theorem reg_randomWith (r : Byte) (x k : Reg) (kk : Byte) (s : State) :
    (randomWith r x kk s).reg k = if k = x then r &&& kk else s.reg k := by simp [randomWith]

/-- Zero extension keeps the number (R10, R82). -/
@[simp] theorem zextNNN_toNat (nnn : BitVec 12) : (zextNNN nnn).toNat = nnn.toNat := by
  have := nnn.isLt
  simp [zextNNN]
  omega

@[simp] theorem zextByte_toNat (b : Byte) : (zextByte b).toNat = b.toNat := by
  have := b.isLt
  simp [zextByte]
  omega

/-- Placing a word keeps memory canonical. -/
theorem State.placeWord_wf (s : State) (w : Word) (h : s.mem.wf) : (s.placeWord w).mem.wf := by
  unfold State.placeWord
  split
  · rename_i hp
    exact Memory.poke_wf _ _ _ (Memory.poke_wf _ _ _ h (Nat.lt_of_succ_lt hp)) hp
  · exact Memory.poke_wf _ _ _ (Memory.poke_wf _ _ _ h (show Config.resetVector.toNat < Config.memSize by decide))
      (show Config.resetVector.toNat + 1 < Config.memSize by decide)

@[simp] theorem bcdDigits_length (b : Byte) : (bcdDigits b).length = 3 := rfl

end Sys2Proof.Machine
end

