-- ==== Sys2Proof/Laws/PerInstr.lean ====
section
/-! SUPPORT. Per instruction, as syntax: the word an instruction is encoded as is of its opcode class (spec/30_encoding.md
R81, R84). -/

namespace Sys2Proof.Laws.EncodedClass

/-- The class nibble of each row of R84; for Unknown that of the word `encode` picks. -/
def classNibble : Instr → Nibble
  | .clear | .ret | .unknown => 0x0
  | .jump _ => 0x1
  | .call _ => 0x2
  | .skipEqImm _ _ => 0x3
  | .skipNeImm _ _ => 0x4
  | .skipEqReg _ _ => 0x5
  | .setImm _ _ => 0x6
  | .addImm _ _ => 0x7
  | .copy _ _ | .or _ _ | .and _ _ | .xor _ _ => 0x8
  | .addCarry _ _ | .subBorrow _ _ | .shiftRight _ _ | .subnBorrow _ _ | .shiftLeft _ _ => 0x8
  | .skipNeReg _ _ => 0x9
  | .setIndex _ => 0xA
  | .jumpAddV0 _ => 0xB
  | .random _ _ => 0xC
  | .draw _ _ _ => 0xD
  | .addToIndex _ | .storeBCD _ | .storeRegs _ | .loadRegs _ => 0xF

/-- The encoding is of the instruction's class. -/
def Statement (i : Instr) : Prop := fieldC (encode i) = classNibble i

theorem clear : Statement .clear := by unfold Statement; decide
theorem ret : Statement .ret := by unfold Statement; decide
theorem jump (nnn : BitVec 12) : Statement (.jump nnn) := fieldC_wordNNN _ _
theorem call (nnn : BitVec 12) : Statement (.call nnn) := fieldC_wordNNN _ _
theorem skipEqImm (x : Reg) (kk : Byte) : Statement (.skipEqImm x kk) := fieldC_wordXKK _ _ _
theorem skipNeImm (x : Reg) (kk : Byte) : Statement (.skipNeImm x kk) := fieldC_wordXKK _ _ _
theorem skipEqReg (x y : Reg) : Statement (.skipEqReg x y) := fieldC_wordXYD _ _ _ _
theorem setImm (x : Reg) (kk : Byte) : Statement (.setImm x kk) := fieldC_wordXKK _ _ _
theorem addImm (x : Reg) (kk : Byte) : Statement (.addImm x kk) := fieldC_wordXKK _ _ _
theorem copy (x y : Reg) : Statement (.copy x y) := fieldC_wordXYD _ _ _ _
theorem or (x y : Reg) : Statement (.or x y) := fieldC_wordXYD _ _ _ _
theorem and (x y : Reg) : Statement (.and x y) := fieldC_wordXYD _ _ _ _
theorem xor (x y : Reg) : Statement (.xor x y) := fieldC_wordXYD _ _ _ _
theorem addCarry (x y : Reg) : Statement (.addCarry x y) := fieldC_wordXYD _ _ _ _
theorem subBorrow (x y : Reg) : Statement (.subBorrow x y) := fieldC_wordXYD _ _ _ _
theorem shiftRight (x y : Reg) : Statement (.shiftRight x y) := fieldC_wordXYD _ _ _ _
theorem subnBorrow (x y : Reg) : Statement (.subnBorrow x y) := fieldC_wordXYD _ _ _ _
theorem shiftLeft (x y : Reg) : Statement (.shiftLeft x y) := fieldC_wordXYD _ _ _ _
theorem skipNeReg (x y : Reg) : Statement (.skipNeReg x y) := fieldC_wordXYD _ _ _ _
theorem setIndex (nnn : BitVec 12) : Statement (.setIndex nnn) := fieldC_wordNNN _ _
theorem jumpAddV0 (nnn : BitVec 12) : Statement (.jumpAddV0 nnn) := fieldC_wordNNN _ _
theorem random (x : Reg) (kk : Byte) : Statement (.random x kk) := fieldC_wordXKK _ _ _
theorem draw (x y : Reg) (n : Nat) : Statement (.draw x y n) := fieldC_wordXYD _ _ _ _
theorem addToIndex (x : Reg) : Statement (.addToIndex x) := fieldC_wordXKK _ _ _
theorem storeBCD (x : Reg) : Statement (.storeBCD x) := fieldC_wordXKK _ _ _
theorem storeRegs (x : Reg) : Statement (.storeRegs x) := fieldC_wordXKK _ _ _
theorem loadRegs (x : Reg) : Statement (.loadRegs x) := fieldC_wordXKK _ _ _
theorem unknown : Statement .unknown := by unfold Statement; decide

end Sys2Proof.Laws.EncodedClass
end

