-- ==== Sys2Proof/Laws/Step.lean ====
section
/-! SUPPORT. The step, said once: what it answers from a faulted state, where the fetch faults, and where it runs. -/

namespace Sys2Proof.Machine

theorem State.afterExec_running {s t : State} (h : t.run = .running) : s.afterExec t = t := by
  simp [State.afterExec, h]

theorem State.afterExec_faulted {s t : State} {f : Fault} (h : t.run = .faulted f) : s.afterExec t = s.takeFault f := by
  simp [State.afterExec, h]

@[simp] theorem State.commit_next (s t : State) : s.commit (.next t) = .next (s.afterExec t) := rfl

theorem runSequence_faulted {execute : Instr → State → Host.Outcome State Fault Refusal} {s : State} {f : Fault}
    (h : s.run = .faulted f) : runSequence execute s = .fault f := by
  simp [runSequence, h]

theorem runSequence_fetch_fault {execute : Instr → State → Host.Outcome State Fault Refusal} {s : State} {f : Fault}
    (h : s.run = .running) (hf : s.fetch = .error f) : runSequence execute s = .next (s.takeFault f) := by
  simp [runSequence, h, hf]

theorem runSequence_runs {execute : Instr → State → Host.Outcome State Fault Refusal} {s : State} {w : Word}
    (h : s.run = .running) (hf : s.fetch = .ok w) :
    runSequence execute s = s.commit (execute (decode w) s.advance) := by
  simp [runSequence, h, hf]

theorem State.fetch_ok {s : State} (h : s.pc.toNat + 1 < 0x1000) :
    s.fetch = .ok (bytesWord (s.mem.peek s.pc.toNat) (s.mem.peek (s.pc.toNat + 1))) := Memory.fetch16_ok s.mem _ h

theorem State.fetch_error {s : State} (h : 0x1000 ≤ s.pc.toNat + 1) :
    s.fetch = .error (.memoryOutOfBounds (max s.pc.toNat 0x1000)) := Memory.fetch16_error s.mem _ h

end Sys2Proof.Machine
end

