-- ==== Sys2Proof/Tests/Slice0.lean ====
section
/-! SUPPORT. The model's own tests. The words and the expected results are those of spec/95_test_vectors.md (named in each
comment, V-...), which works them by hand from the rules, or are written out here from the rule named. Then, for every
statement with a hypothesis, a witness that meets all of them. -/

namespace Sys2Proof.Tests

open Sys2Proof Sys2Proof.Machine Sys2Proof.Safety

/-- The reset state with the word `w` at 0x200. -/
def at200 (w : Word) : State := State.reset.placeWord w

/-- A byte placed directly in memory, as the test vectors place it. -/
def put (s : State) (a : Nat) (b : Byte) : State := s.setMem (s.mem.poke a b)

/-- What a next state holds, where the outcome is one. -/
def after {α : Type} (o : Host.Outcome State Fault Refusal) (f : State → α) : Option α :=
  match o with
  | .next t => some (f t)
  | .fault _ => none
  | .refused _ => none

/-- The fault a stopped machine answers. -/
def stopped (o : Host.Outcome State Fault Refusal) : Option Fault :=
  match o with
  | .fault f => some f
  | .next _ => none
  | .refused _ => none

/-! ## WellFormed: each check refuses an ill-formed term -/

/-- A row count of 16 does not fit the nibble `n` (R82). -/
theorem test_illformed_draw_16_rows : (Instr.draw 0 1 16).wellFormed = false := by decide

theorem test_wellformed_draw_15_rows : (Instr.draw 0 1 15).wellFormed = true := by decide

/-- An image of 0xE01 bytes does not fit (V-FLT-5). -/
theorem test_illformed_image : imageWellFormed (List.replicate 0xE01 0x11#8) = false := by
  simp only [imageWellFormed, List.length_replicate]; decide

/-! ## Decode: for every constructor a word written out from the patterns of R84 -/

/-- `0000 0000 1110 0000` (V-DEC-2) -/
theorem test_decode_clear : decode 0b0000000011100000 = .clear := by decide
/-- `0000 0000 1110 1110` (V-DEC-3) -/
theorem test_decode_return : decode 0b0000000011101110 = .ret := by decide
/-- `0001 nnnn nnnn nnnn` (V-DEC-6) -/
theorem test_decode_jump : decode 0b0001101010111100 = .jump 0xABC := by decide
/-- `0010 nnnn nnnn nnnn` (V-DEC-7) -/
theorem test_decode_call : decode 0b0010111111111111 = .call 0xFFF := by decide
/-- `0011 xxxx kkkk kkkk` (V-DEC-8) -/
theorem test_decode_skipEqImm : decode 0b0011101001111111 = .skipEqImm 0xA 0x7F := by decide
/-- `0100 xxxx kkkk kkkk`, `x` = 3, `kk` = 0x12 -/
theorem test_decode_skipNeImm : decode 0b0100001100010010 = .skipNeImm 3 0x12 := by decide
/-- `0101 xxxx yyyy 0000` (V-DEC-9) -/
theorem test_decode_skipEqReg : decode 0b0101000100100000 = .skipEqReg 1 2 := by decide
/-- `0110 xxxx kkkk kkkk`, `x` = 0xB, `kk` = 0x44 -/
theorem test_decode_setImm : decode 0b0110101101000100 = .setImm 0xB 0x44 := by decide
/-- `0111 xxxx kkkk kkkk`, `x` = 0xB, `kk` = 0x04 -/
theorem test_decode_addImm : decode 0b0111101100000100 = .addImm 0xB 0x04 := by decide
/-- `1000 xxxx yyyy 0000` (V-DEC-11) -/
theorem test_decode_copy : decode 0b1000101010110000 = .copy 0xA 0xB := by decide
/-- `1000 xxxx yyyy 0001`, `x` = 1, `y` = 2 -/
theorem test_decode_or : decode 0b1000000100100001 = .or 1 2 := by decide
/-- `1000 xxxx yyyy 0010`, `x` = 1, `y` = 2 -/
theorem test_decode_and : decode 0b1000000100100010 = .and 1 2 := by decide
/-- `1000 xxxx yyyy 0011`, `x` = 1, `y` = 2 -/
theorem test_decode_xor : decode 0b1000000100100011 = .xor 1 2 := by decide
/-- `1000 xxxx yyyy 0100`, `x` = 1, `y` = 2 -/
theorem test_decode_addCarry : decode 0b1000000100100100 = .addCarry 1 2 := by decide
/-- `1000 xxxx yyyy 0101`, `x` = 1, `y` = 2 -/
theorem test_decode_subBorrow : decode 0b1000000100100101 = .subBorrow 1 2 := by decide
/-- `1000 xxxx yyyy 0110`, `x` = 1, `y` = 2 -/
theorem test_decode_shiftRight : decode 0b1000000100100110 = .shiftRight 1 2 := by decide
/-- `1000 xxxx yyyy 0111`, `x` = 1, `y` = 2 -/
theorem test_decode_subnBorrow : decode 0b1000000100100111 = .subnBorrow 1 2 := by decide
/-- `1000 xxxx yyyy 1110` (V-DEC-13) -/
theorem test_decode_shiftLeft : decode 0b1000101010111110 = .shiftLeft 0xA 0xB := by decide
/-- `1001 xxxx yyyy 0000` (V-DEC-15) -/
theorem test_decode_skipNeReg : decode 0b1001000100100000 = .skipNeReg 1 2 := by decide
/-- `1010 nnnn nnnn nnnn`, `nnn` = 0x2F0 -/
theorem test_decode_setIndex : decode 0b1010001011110000 = .setIndex 0x2F0 := by decide
/-- `1011 nnnn nnnn nnnn` (V-DEC-17) -/
theorem test_decode_jumpAddV0 : decode 0b1011000100100011 = .jumpAddV0 0x123 := by decide
/-- `1100 xxxx kkkk kkkk`, `x` = 3, `kk` = 0x0F -/
theorem test_decode_random : decode 0b1100001100001111 = .random 3 0x0F := by decide
/-- `1101 xxxx yyyy nnnn` (V-DEC-19) -/
theorem test_decode_draw : decode 0b1101111111101111 = .draw 0xF 0xE 15 := by decide
/-- `1111 xxxx 0001 1110` (V-DEC-21) -/
theorem test_decode_addToIndex : decode 0b1111000000011110 = .addToIndex 0 := by decide
/-- `1111 xxxx 0011 0011` (V-DEC-26) -/
theorem test_decode_storeBCD : decode 0b1111000100110011 = .storeBCD 1 := by decide
/-- `1111 xxxx 0101 0101`, `x` = 0xF -/
theorem test_decode_storeRegs : decode 0b1111111101010101 = .storeRegs 0xF := by decide
/-- `1111 xxxx 0110 0101` (V-DEC-24) -/
theorem test_decode_loadRegs : decode 0b1111111101100101 = .loadRegs 0xF := by decide
/-- Words of no row (V-DEC-1, 4, 5, 10, 12, 14, 16, 20, 22, 23, 25) -/
theorem test_decode_unknown :
    [0x0000, 0x00EF, 0x0123, 0x5121, 0x8AB8, 0x8ABF, 0x912F, 0xE09E, 0xF029, 0xF107, 0xFFFF].all
      (fun w : Word => decode w == .unknown) = true := by decide

/-- A single byte is no instruction (R80). -/
theorem test_decode_truncated : decodeBytes [0x00#8] = .error .truncated := by decide

/-- Bytes are taken high byte first (V-SRC-2). -/
theorem test_decode_bytes : decodeBytes [0xAB#8, 0xCD#8] = .ok (.setIndex 0xBCD, []) := by decide

theorem test_decode_table_word : decodeTableWord 16 0xD015 = some (.draw 0 1 5) := by decide

/-! ## One step of each instruction -/

/-- V-SRC-2, on the fetch alone: bytes AB CD at address 0 are the word 0xABCD. -/
theorem test_fetch_big_endian : (put (put State.reset 0 0xAB) 1 0xCD).mem.fetch16 0 = .ok 0xABCD#16 := by decide

/-- V-FET-3: the last two bytes of memory; PC becomes 0x1000. -/
theorem test_step_last_word :
    after (step (put (put (State.reset.setPc 0xFFE) 0xFFE 0x61) 0xFFF 0x23)) (fun t => (t.reg 1, t.pc, t.run)) =
      some (0x23, 0x1000, .running) := by decide

/-- V-FET-5: PC = 0xFFF; the fault is at the second byte, and PC stays. -/
theorem test_step_fetch_fault :
    after (step (State.reset.setPc 0xFFF)) (fun t => (t.pc, t.run)) =
      some (0xFFF, .faulted (.memoryOutOfBounds 0x1000)) := by decide

/-- V-FET-7: PC = 0xFFFF does not wrap. -/
theorem test_step_fetch_fault_top :
    after (step (State.reset.setPc 0xFFFF)) (fun t => t.run) = some (.faulted (.memoryOutOfBounds 0xFFFF)) := by decide

/-- V-FET-2: an odd PC. -/
theorem test_step_odd_pc :
    after (step ((State.reset.setPc 0x201).placeWord 0x6123)) (fun t => (t.reg 1, t.pc)) = some (0x23, 0x203) := by decide

/-- V-SKP-1 -/
theorem test_skipEqImm_taken : after (step ((at200 0x3312).setReg 3 0x12)) (fun t => t.pc) = some 0x204 := by decide
/-- V-SKP-2 -/
theorem test_skipEqImm_not : after (step ((at200 0x3312).setReg 3 0x13)) (fun t => t.pc) = some 0x202 := by decide
/-- V-SKP-3 -/
theorem test_skipNeImm_not : after (step ((at200 0x4312).setReg 3 0x12)) (fun t => t.pc) = some 0x202 := by decide
/-- V-SKP-4 -/
theorem test_skipNeImm_taken : after (step ((at200 0x4312).setReg 3 0x13)) (fun t => t.pc) = some 0x204 := by decide
/-- V-SKP-5 -/
theorem test_skipEqReg_taken :
    after (step (((at200 0x5120).setReg 1 7).setReg 2 7)) (fun t => t.pc) = some 0x204 := by decide
/-- V-SKP-6 -/
theorem test_skipEqReg_not :
    after (step (((at200 0x5120).setReg 1 7).setReg 2 8)) (fun t => t.pc) = some 0x202 := by decide
/-- V-SKP-8 -/
theorem test_skipNeReg_taken :
    after (step (((at200 0x9120).setReg 1 7).setReg 2 8)) (fun t => t.pc) = some 0x204 := by decide
/-- V-SKP-9 -/
theorem test_skipNeReg_same : after (step ((at200 0x9110).setReg 1 7)) (fun t => t.pc) = some 0x202 := by decide

/-- V-JMP-1 -/
theorem test_jump : after (step (at200 0x1ABC)) (fun t => t.pc) = some 0x0ABC := by decide
/-- V-JMP-5 -/
theorem test_call : after (step (at200 0x2300)) (fun t => (t.pc, t.stack)) = some (0x300, [0x202]) := by decide
/-- V-JMP-8, its third step: STACK_DEPTH = 2. -/
theorem test_call_full :
    after (step (({ at200 0x2200 with stackDepth := some 2 } : State).setStack [0x202, 0x202])) (fun t => (t.pc, t.stack, t.run)) =
      some (0x200, [0x202, 0x202], .faulted (.stackOverflow 0x202)) := by decide
/-- V-JMP-12, its first step -/
theorem test_jumpAddV0_top : after (step ((at200 0xBFFF).setReg 0 0xFF)) (fun t => t.pc) = some 0x10FE := by decide
/-- V-JMP-13: V0 is used, not V1. -/
theorem test_jumpAddV0_v0 :
    after (step (((at200 0xB100).setReg 0 1).setReg 1 0x50)) (fun t => t.pc) = some 0x101 := by decide
/-- V-JMP-6, its second step -/
theorem test_return : after (step ((at200 0x00EE).setStack [0x111, 0x202])) (fun t => (t.pc, t.stack)) =
    some (0x202, [0x111]) := by decide
/-- V-SRC-9b: PC stays at the Return. -/
theorem test_return_empty : after (step (at200 0x00EE)) (fun t => (t.pc, t.run)) =
    some (0x200, .faulted .stackUnderflow) := by decide
/-- V-SRC-9a, its second step: a faulted machine answers its fault. -/
theorem test_faulted_again : stopped (step (State.reset.takeFault (.memoryOutOfBounds 0x1000))) =
    some (.memoryOutOfBounds 0x1000) := by decide

/-- V-ALU-2: VF as an ordinary destination. -/
theorem test_setImm_vf : after (step (at200 0x6F55)) (fun t => (t.reg vf, t.pc)) = some (0x55, 0x202) := by decide
/-- V-ALU-3: wrap, VF unchanged. -/
theorem test_addImm_wraps :
    after (step (((at200 0x7102).setReg 1 0xFF).setReg vf 0x55)) (fun t => (t.reg 1, t.reg vf)) = some (0x01, 0x55) := by decide
/-- V-ALU-7: the draw handed in by the host. -/
theorem test_random_draw : after (stepWith 0xA7 (at200 0xC30F)) (fun t => t.reg 3) = some 0x07 := by decide
/-- V-ALU-8: any draw masked by 0 is 0. -/
theorem test_random_mask_zero : after (step ((at200 0xC300).setReg 3 0x99)) (fun t => t.reg 3) = some 0x00 := by
  exact congrArg some (BitVec.and_zero (x := Config.randomByte 0))
/-- V-ALU-10 -/
theorem test_copy : after (step ((at200 0x8120).setReg 2 0x5A)) (fun t => (t.reg 1, t.reg 2)) = some (0x5A, 0x5A) := by decide
/-- V-ALU-12 -/
theorem test_or : after (step ((((at200 0x8121).setReg 1 0xF0).setReg 2 0x0F).setReg vf 0x77)) (fun t => (t.reg 1, t.reg vf)) =
    some (0xFF, 0x77) := by decide
/-- V-ALU-13 -/
theorem test_and : after (step ((((at200 0x8122).setReg 1 0xF0).setReg 2 0x3C).setReg vf 0x77)) (fun t => (t.reg 1, t.reg vf)) =
    some (0x30, 0x77) := by decide
/-- V-ALU-14 -/
theorem test_xor : after (step ((((at200 0x8123).setReg 1 0xF0).setReg 2 0x3C).setReg vf 0x77)) (fun t => (t.reg 1, t.reg vf)) =
    some (0xCC, 0x77) := by decide
/-- V-ALU-18 -/
theorem test_addCarry_256 : after (step (((at200 0x8124).setReg 1 0xFF).setReg 2 0x01)) (fun t => (t.reg 1, t.reg vf)) =
    some (0x00, 0x01) := by decide
/-- V-ALU-20: the flag wins over the sum. -/
theorem test_addCarry_vf : after (step (((at200 0x8F14).setReg 1 0x02).setReg vf 0xFF)) (fun t => t.reg vf) = some 0x01 := by decide
/-- V-SRC-5b -/
theorem test_subBorrow_borrow :
    after (step ((((at200 0x8125).setReg 1 1).setReg 2 2).setReg vf 1)) (fun t => (t.reg 1, t.reg vf)) = some (0xFF, 0x00) := by decide
/-- V-ALU-24: equality is no borrow. -/
theorem test_subBorrow_equal : after (step (((at200 0x8125).setReg 1 5).setReg 2 5)) (fun t => (t.reg 1, t.reg vf)) =
    some (0x00, 0x01) := by decide
/-- V-ALU-29: the source is V2. -/
theorem test_shiftRight : after (step (((at200 0x8126).setReg 1 0xFF).setReg 2 5)) (fun t => (t.reg 1, t.reg vf)) =
    some (0x02, 0x01) := by decide
/-- V-ALU-33: the old VF is shifted. -/
theorem test_shiftRight_vf : after (step ((at200 0x81F6).setReg vf 0x81)) (fun t => (t.reg 1, t.reg vf)) =
    some (0x40, 0x01) := by decide
/-- V-ALU-35 -/
theorem test_subnBorrow : after (step (((at200 0x8127).setReg 1 2).setReg 2 1)) (fun t => (t.reg 1, t.reg vf)) =
    some (0xFF, 0x00) := by decide
/-- V-ALU-38: the result is lost. -/
theorem test_subnBorrow_vf : after (step (((at200 0x8F27).setReg vf 5).setReg 2 3)) (fun t => t.reg vf) = some 0x00 := by decide
/-- V-ALU-41 -/
theorem test_shiftLeft : after (step (((at200 0x812E).setReg 2 0x40).setReg vf 1)) (fun t => (t.reg 1, t.reg vf)) =
    some (0x80, 0x00) := by decide
/-- V-ALU-40 -/
theorem test_shiftLeft_out : after (step ((at200 0x812E).setReg 2 0x80)) (fun t => (t.reg 1, t.reg vf)) =
    some (0x00, 0x01) := by decide

/-- V-DRW-11: one lit pixel, cleared; VF unchanged. -/
theorem test_clear :
    after (step (((at200 0x00E0).setDisp (Display.blank.toggle 3 3)).setReg vf 7)) (fun t => (t.disp.pixel 3 3, t.reg vf)) =
      some (false, 0x07) := by decide
/-- V-DRW-3b, its first step: one pixel turned on, one off, a collision. -/
theorem test_draw_collision :
    after (step (((put (at200 0xD011) 0x300 0xC0).setIndex 0x300).setDisp (Display.blank.toggle 1 0)))
      (fun t => (t.disp.pixel 0 0, t.disp.pixel 1 0, t.reg vf)) = some (true, false, 0x01) := by decide
/-- V-DRW-9: the third row is past the end; nothing is drawn and VF keeps its value. -/
theorem test_draw_past_end :
    after (step (((put (put (at200 0xD013) 0xFFE 0xFF) 0xFFF 0xFF).setIndex 0xFFE).setReg vf 7))
      (fun t => (t.disp.pixel 0 0, t.reg vf, t.pc, t.run)) =
      some (false, 0x07, 0x200, .faulted (.memoryOutOfBounds 0x1000)) := by decide

/-- V-IDX-1 -/
theorem test_setIndex : after (step (at200 0xA2F0)) (fun t => t.i) = some 0x2F0 := by decide
/-- V-IDX-3: wrap, VF unchanged. -/
theorem test_addToIndex_wraps :
    after (step ((((at200 0xF01E).setIndex 0xFFFF).setReg 0 1).setReg vf 0x55)) (fun t => (t.i, t.reg vf)) = some (0x0000, 0x55) := by
  decide
/-- V-IDX-4: past 0xFFF without a fault. -/
theorem test_addToIndex_past : after (step (((at200 0xF01E).setIndex 0xFFF).setReg 0 1)) (fun t => (t.i, t.run)) =
    some (0x1000, .running) := by decide
/-- V-MEM-1 -/
theorem test_storeBCD : after (step (((at200 0xF033).setReg 0 0xFE).setIndex 0x300)) (fun t => (t.mem.readBytes 0x300 3, t.i)) =
    some (.ok [2, 5, 4], 0x300) := by decide
/-- V-MEM-5: nothing is written. -/
theorem test_storeBCD_past_end :
    after (step (((put (put (at200 0xF033) 0xFFE 0x77) 0xFFF 0x77).setReg 0 0xFE).setIndex 0xFFE))
      (fun t => (t.mem.readBytes 0xFFE 2, t.run)) =
      some (.ok [0x77, 0x77], .faulted (.memoryOutOfBounds 0x1000)) := by decide
/-- V-MEM-6 -/
theorem test_storeRegs :
    after (step ((((at200 0xF155).setReg 0 0x11).setReg 1 0x22).setIndex 0x300)) (fun t => (t.mem.readBytes 0x300 3, t.i)) =
      some (.ok [0x11, 0x22, 0x00], 0x300) := by decide
/-- V-MEM-14: the glyph table is writable. -/
theorem test_storeRegs_glyph : after (step ((at200 0xF055).setIndex 0x50)) (fun t => t.mem.readByte 0x50) =
    some (.ok 0x00) := by decide
/-- V-MEM-13: glyph 0 -/
theorem test_loadRegs_glyph :
    after (step ((at200 0xF465).setIndex 0x50)) (fun t => (t.reg 0, t.reg 1, t.reg 4, t.reg 5)) =
      some (0xF0, 0x90, 0xF0, 0x00) := by decide
/-- V-MEM-15: no register changes. -/
theorem test_loadRegs_past_end :
    after (step ((((at200 0xF165).setIndex 0xFFF).setReg 0 0x12).setReg 1 0x34)) (fun t => (t.reg 0, t.reg 1, t.run)) =
      some (0x12, 0x34, .faulted (.memoryOutOfBounds 0x1000)) := by decide
/-- V-UNK-2 -/
theorem test_unknown : after (step ((at200 0xE09E).setReg 0 0x12)) (fun t => t) =
    some (((at200 0xE09E).setReg 0 0x12).setPc 0x202) := by decide

/-! ## The host -/

/-- R123: element 64 + 3 of the snapshot is the pixel (3, 1). -/
theorem test_snapshot : (Display.blank.toggle 3 1).pixels[67]? = some true := by decide
/-- V-FLT-6: load does not set PC. -/
theorem test_load : (((HostOp.load [0x12, 0x00]).apply (State.reset.setPc 0x300)).1.mem.fetch16 0x200,
    ((HostOp.load [0x12, 0x00]).apply (State.reset.setPc 0x300)).1.pc) = (.ok 0x1200, 0x300) := by decide
/-- V-SRC-6: Call applied directly pushes the PC it is given. -/
theorem test_execute_call :
    (((HostOp.execute (.call 0x111) 0).apply (State.reset.setPc 0x50)).1.stack,
      ((HostOp.execute (.call 0x111) 0).apply (State.reset.setPc 0x50)).1.pc) = ([0x50], 0x111) := by decide
/-- V-FLT-1: setPC does not leave a fault. -/
theorem test_setPC_faulted :
    stopped (step ((HostOp.setPC 0x300).apply (State.reset.takeFault .stackUnderflow)).1) = some .stackUnderflow := by decide
/-- Draw A7, word C30F (the example of R174): V3 = 07, `PC` = 202, reply `Ok` (R110). -/
theorem test_host_step_random :
    (((HostOp.step 0xA7).apply (at200 0xC30F)).1.reg 3, ((HostOp.step 0xA7).apply (at200 0xC30F)).1.pc,
      ((HostOp.step 0xA7).apply (at200 0xC30F)).2) = (0x07, 0x202, .ok) := by decide

/-- R126: the timer stops at 0. -/
theorem test_tickDT_zero : (HostOp.tickDT.apply State.reset).1.dt = 0 := by decide
/-- The host's placing of a word: step runs it next, whatever PC holds. -/
theorem test_withFetchWord : after (step ((State.reset.setPc 0xFFFF).withFetchWord 16 0x6123)) (fun t => t.reg 1) = some 0x23 := by
  decide

/-! ## Witnesses: for each statement with hypotheses, values that meet them -/

theorem witness_DecodeInvertsEncode : (Instr.draw 15 14 15).wellFormed = true := by decide

theorem witness_EncodeInvertsDecode : decode 0xD01F ≠ .unknown := by decide

theorem witness_DecodeIsTheTableInAnyOrder : ∃ rows : List TableRow, rows.Perm opcodeTable ∧ rows ≠ [] :=
  ⟨opcodeTable.reverse, opcodeTable.reverse_perm, fun h => by
    have := congrArg List.length h
    simp [opcodeTable, tableRowsLow, tableRowsClass8, tableRowsHigh] at this⟩

/-- Both clauses, at the boundary. -/
theorem witness_MemoryReadAndWriteOneByte : Memory.wf [(0x200, 0x12#8)] ∧ (0x1000 > 0xFFF) ∧ (0xFFF ≤ 0xFFF) := by decide

theorem witness_CanonicalMemoriesReadingAlikeAreEqual : Memory.wf [(0x050, 0x00#8), (0xFFF, 0x01#8)] := by decide

/-- The first clause, at the last address that has a second byte; the other two are met by 0xFFF and 0x1000. -/
theorem witness_FetchIsBigEndian :
    Memory.readByte [(0xFFF, 0x23#8)] 0xFFE = .ok 0x00 ∧ Memory.readByte [(0xFFF, 0x23#8)] (0xFFE + 1) = .ok 0x23 ∧
      0x1000 > 0xFFF := by decide

theorem witness_StoredRegistersAreFetched :
    (at200 0xF155).mem.wf ∧ 1 ≤ (1 : Reg).val ∧ ((at200 0xF155).setIndex 0xFFE).base + (1 : Reg).val ≤ 0xFFF := by decide

/-- A skip of each kind, taken; the first is at 0xFFC, so that it skips past the end. -/
theorem witness_TakenSkipEndsFourPast_taken :
    ((State.reset.setPc 0xFFC).placeWord 0x3000).fetch = .ok 0x3000 ∧ decode 0x3000 = .skipEqImm 0 0 ∧ State.reset.reg 0 = 0 ∧
    (at200 0x4012).fetch = .ok 0x4012 ∧ decode 0x4012 = .skipNeImm 0 0x12 ∧ (at200 0x4012).reg 0 ≠ 0x12 ∧
    (at200 0x5120).fetch = .ok 0x5120 ∧ decode 0x5120 = .skipEqReg 1 2 ∧ (at200 0x5120).reg 1 = (at200 0x5120).reg 2 ∧
    (at200 0x9120).fetch = .ok 0x9120 ∧ decode 0x9120 = .skipNeReg 1 2 ∧
      ((at200 0x9120).setReg 1 7).reg 1 ≠ ((at200 0x9120).setReg 1 7).reg 2 ∧ (at200 0x9120).run = .running := by decide

/-- A skip of each kind, not taken. -/
theorem witness_TakenSkipEndsFourPast_not :
    (at200 0x3012).fetch = .ok 0x3012 ∧ decode 0x3012 = .skipEqImm 0 0x12 ∧ (at200 0x3012).reg 0 ≠ 0x12 ∧
    (at200 0x4000).fetch = .ok 0x4000 ∧ decode 0x4000 = .skipNeImm 0 0 ∧ (at200 0x4000).reg 0 = 0 ∧
    (at200 0x5120).fetch = .ok 0x5120 ∧ ((at200 0x5120).setReg 1 7).reg 1 ≠ ((at200 0x5120).setReg 1 7).reg 2 ∧
    (at200 0x9110).fetch = .ok 0x9110 ∧ decode 0x9110 = .skipNeReg 1 1 ∧ (at200 0x9110).run = .running := by decide

/-- The self-jump, and a state from which the next fetch faults. -/
theorem witness_JumpGoesToAddress :
    (at200 0x1200).run = .running ∧ (at200 0x1200).fetch = .ok (wordNNN 0x1 0x200) ∧
      (at200 0x1200).pc.toNat = (0x200#12).toNat ∧ (State.reset.setPc 0xFFF).run = .running ∧
      (State.reset.setPc 0xFFF).pc.toNat > 0xFFE := by decide

/-- Unbounded, and bounded with room for one more; the same hypothesis as in ReturnUndoesCall. -/
theorem witness_CallPushesReturnAddress :
    State.reset.stackDepth ≠ some State.reset.stack.length ∧ (some 1 : Option Nat) ≠ some ([] : List Addr).length := by decide

theorem witness_ReturnUndoesCall : State.reset.stackDepth ≠ some State.reset.stack.length := by decide

theorem witness_CallOnFullStackFaults :
    ∃ s : State, s.stackDepth = some s.stack.length ∧ s.run = .running ∧ s.fetch = .ok (wordNNN 0x2 0x200) :=
  ⟨{ at200 0x2200 with stackDepth := some 0 }, by decide⟩

/-- A stack of one entry, and the empty stack at a Return. -/
theorem witness_ReturnPopsOrUnderflows :
    (State.reset.setStack [0xFFFF]).stack = [] ++ [0xFFFF] ∧ (at200 0x00EE).stack = [] ∧ (at200 0x00EE).run = .running ∧
      (at200 0x00EE).fetch = .ok 0x00EE := by decide

theorem witness_OnlyFlagWritersTouchVF :
    writesFlag (.loadRegs 14) = false ∧ vf ∉ destinations (.loadRegs 14) ∧
      (after (exec (.loadRegs 14) State.reset) (fun t => t.reg vf)).isSome = true := by decide

/-- A flag writer of registers with VF as both operands, and a Draw. -/
theorem witness_FlagValuesAreZeroOrOne :
    writesFlag (.addCarry 15 15) = true ∧ State.reset.run = .running ∧
      after (exec (.addCarry 15 15) State.reset) (fun t => t.run) = some .running ∧
      after (exec (.draw 15 15 1) State.reset) (fun t => t.run) = some .running := by decide

theorem witness_BlitIsPixelwiseXor : (List.replicate 15 0xFF#8).length ≤ 15 := by decide

/-- No rows with `I` out of range, and fifteen rows up to the last byte. -/
theorem witness_DrawBlitsTheSprite :
    (Instr.draw 0 1 15).wellFormed = true ∧ (State.reset.setIndex 0xFF1).base + 15 ≤ 0x1000 ∧
      (Instr.draw 0 1 0).wellFormed = true ∧ (0 = 0 ∨ (State.reset.setIndex 0xFFFF).base + 0 ≤ 0x1000) := by decide

theorem witness_DrawPastTheEndFaults :
    0 < 2 ∧ (State.reset.setIndex 0xFFF).base + 2 > 0x1000 ∧ 0 < 1 ∧ (State.reset.setIndex 0x1000).base + 1 > 0x1000 := by decide

/-- With VF as a coordinate too, where the flag written leaves it as it was. -/
theorem witness_DrawingTwiceRestoresTheDisplay :
    (Instr.draw 15 1 1).wellFormed = true ∧ (State.reset.setIndex 0x50).base + 1 ≤ 0x1000 ∧
      after (exec (.draw 15 1 1) (State.reset.setIndex 0x50)) (fun t => (t.reg 15, t.reg 1)) =
        some ((State.reset.setIndex 0x50).reg 15, (State.reset.setIndex 0x50).reg 1) := by decide

theorem witness_StoreBCDStoresDigits : State.reset.mem.wf ∧ (State.reset.setIndex 0xFFD).base + 2 ≤ 0xFFF := by decide

theorem witness_StoreRegsStoresTheRange :
    State.reset.mem.wf ∧ (State.reset.setIndex 0xFF0).base + (15 : Reg).val ≤ 0xFFF := by decide

theorem witness_LoadRegsLoadsTheRange : (State.reset.setIndex 0xFF0).base + (15 : Reg).val ≤ 0xFFF := by decide

theorem witness_AccessPastTheEndFaultsWhole :
    (State.reset.setIndex 0xFFE).base + 2 > 0xFFF ∧ (State.reset.setIndex 0xFFF).base + (1 : Reg).val > 0xFFF := by decide

theorem witness_UnknownChangesOnlyPc :
    (at200 0xE09E).run = .running ∧ (at200 0xE09E).fetch = .ok 0xE09E ∧ decode 0xE09E = .unknown := by decide

/-- An instruction that completes, and one that takes a fault. -/
theorem witness_StepRunsTheDecodedInstruction :
    (at200 0x6123).run = .running ∧ (at200 0x6123).mem.readByte (at200 0x6123).pc.toNat = .ok 0x61 ∧
      (at200 0x6123).mem.readByte ((at200 0x6123).pc.toNat + 1) = .ok 0x23 ∧
      decodeBytes [0x61, 0x23] = .ok (.setImm 1 0x23, []) ∧
      after (exec (.setImm 1 0x23) ((at200 0x6123).setPc 0x202)) (fun t => t.run) = some .running ∧
      decodeBytes [0x00, 0xEE] = .ok (.ret, []) ∧
      after (exec .ret ((at200 0x00EE).setPc 0x202)) (fun t => t.run) = some (.faulted .stackUnderflow) := by decide

theorem witness_FetchPastTheEndFaults :
    State.reset.run = .running ∧ (State.reset.setPc 0xFFF).pc.toNat = 0xFFF ∧ (State.reset.setPc 0x1000).pc.toNat > 0xFFF := by decide

theorem witness_RunningStepAnswersNext : State.reset.run = .running := by decide

theorem witness_FaultingStepCommitsNothing :
    (at200 0x00EE).run = .running ∧ after (step (at200 0x00EE)) (fun t => t.run) = some (.faulted .stackUnderflow) := by decide

theorem witness_FaultedIsAbsorbing :
    (State.reset.takeFault .stackUnderflow).run = .faulted .stackUnderflow ∧ HostOp.setPC 0 ≠ .reset := by decide

/-- Each of the three faults. -/
theorem witness_FaultsByInstruction :
    after (exec (.storeRegs 1) (State.reset.setIndex 0xFFF)) (fun t => t.run) = some (.faulted (.memoryOutOfBounds 0x1000)) ∧
    after (exec .ret State.reset) (fun t => t.run) = some (.faulted .stackUnderflow) ∧
    after (exec (.call 0) { State.reset with stackDepth := some 0 }) (fun t => t.run) =
      some (.faulted (.stackOverflow 0x200)) := by decide

/-- A store, and a flag writer with registers that are neither its destination nor its flag. -/
theorem witness_EachPartHasItsWriters :
    State.reset.run = .running ∧ after (exec (.storeRegs 15) (State.reset.setIndex 0xFF0)) (fun t => t.run) = some .running ∧
      after (exec (.addCarry 1 2) State.reset) (fun t => t.run) = some .running ∧ (2 : Reg) ∉ destinations (.addCarry 1 2) ∧
      ¬ ((2 : Reg) = vf ∧ writesFlag (.addCarry 1 2) = true) ∧ transfersControl (.addCarry 1 2) = false := by decide

theorem witness_SequentialStepsAdvanceByTwo :
    (at200 0xF055).run = .running ∧ (at200 0xF055).fetch = .ok 0xF055 ∧ transfersControl (decode 0xF055) = false ∧
      after (step (at200 0xF055)) (fun t => t.run) = some .running := by decide

theorem witness_StepIgnoresTheDelayTimer : (after (step (at200 0x6123)) (fun t => t.pc)).isSome = true := by decide

theorem witness_StepKeepsInv : ∃ s : State, Inv s ∧ (after (step s) (fun t => t.pc)).isSome = true :=
  ⟨State.reset, ⟨by decide, fun d h => (by cases h), trivial⟩, by decide⟩

/-- An image that just fits, and one that just does not. -/
theorem witness_HostLoadCopiesTheImage :
    State.reset.mem.wf ∧ (List.replicate 0xE00 0x11#8).length ≤ 0xE00 ∧ (List.replicate 0xE01 0x11#8).length > 0xE00 := by
  simp only [List.length_replicate]; decide

/-- A Random fetched with a draw that is handed in, and a word whose step takes a fault. -/
theorem witness_HostExecuteAppliesTheOperation :
    (at200 0xC30F).run = .running ∧ (at200 0xC30F).fetch = .ok 0xC30F ∧
      after (execWith 0xA7 (decode 0xC30F) { at200 0xC30F with pc := (at200 0xC30F).pc + 2 }) (fun t => t.run) = some .running ∧
      (at200 0x00EE).fetch = .ok 0x00EE ∧
      after (execWith 0 (decode 0x00EE) { at200 0x00EE with pc := (at200 0x00EE).pc + 2 }) (fun t => t.run) =
        some (.faulted .stackUnderflow) := by decide

theorem witness_OnlyRandomReadsTheDraw :
    (at200 0x6123).fetch = .ok 0x6123 ∧ ∀ x kk, decode 0x6123 ≠ .random x kk :=
  ⟨by decide, fun x kk h => by rw [show decode 0x6123 = .setImm 1 0x23 by decide] at h; cases h⟩

theorem witness_OnlyRandomReadsTheDraw_execute : ∀ x kk, Instr.call 0x111 ≠ .random x kk := fun _ _ h => by cases h

theorem witness_InspectReturnsTheState : State.reset.mem.readByte 0xFFF = .ok 0x00 ∧ 0xFFF ≤ 0xFFF := by decide

theorem witness_HostOperationsKeepInv : Inv State.reset := ⟨by decide, fun d h => (by cases h), trivial⟩

end Sys2Proof.Tests
end

section
/-! The read and the write of one byte (spec/20_memory.md R52, R53): what a read returns after a write to the same address and
to another, then obligation O6. -/

namespace Sys2Proof.Machine

/-- R52 after R53, at the address written. -/
theorem Memory.readByte_poke_self {m : Memory} {a : Nat} (b : Byte) (hm : m.wf) (ha : a < 0x1000) :
    (m.poke a b).readByte a = .ok b := by
  rw [readByte_ok ha, peek_poke_self m a b hm]

/-- R52 after R53, at any other address, whether or not it exists. -/
theorem Memory.readByte_poke_ne (m : Memory) {a a' : Nat} (b : Byte) (h : a' ≠ a) :
    (m.poke a b).readByte a' = m.readByte a' := by
  simp only [readByte, peek_poke_ne m b h]

/-- Settles O6: the bound alone decides the outcome of both accesses, and below it the new memory is `m.poke a b`. -/
theorem memoryReadAndWriteOneByte : Obligations.MemoryReadAndWriteOneByte := by
  intro m a b hm
  refine ⟨fun above => ?_, fun below => ?_⟩
  · have ha : 0x1000 ≤ a := by omega
    exact ⟨Memory.readByte_error ha, Memory.writeByte_error b ha⟩
  · have ha : a < 0x1000 := by omega
    exact ⟨⟨m.peek a, Memory.readByte_ok ha⟩, m.poke a b, Memory.writeByte_ok b ha, Memory.readByte_poke_self b hm ha,
      fun _ hne => Memory.readByte_poke_ne m b hne⟩

end Sys2Proof.Machine
end

section
/-! The snapshot of the display (spec/40_sequencer.md R123): its 2048 pixels row after row, then obligation O55. -/

namespace Sys2Proof.Machine

/-- The pixels in one list are the rows of the display, flattened. -/
theorem Display.pixels_eq_toList_flatten (d : Display) : d.pixels = (Vector.flatten d).toList := by
  change (d.toArray.toList.map (Array.toList ∘ Vector.toArray)).flatten = (d.toArray.map Vector.toArray).flatten.toList
  rw [Array.toList_flatten, Array.toList_map, List.map_map]

@[simp] theorem Display.length_pixels (d : Display) : d.pixels.length = 2048 := by
  rw [Display.pixels_eq_toList_flatten, Vector.length_toList]

/-- R28 and R123: row-major order, 64 columns to a row. -/
theorem Display.getElem?_pixels (d : Display) (c : Fin 64) (r : Fin 32) :
    d.pixels[r.val * 64 + c.val]? = some (d.pixel c r) := by
  have inside : r.val * 64 + c.val < 32 * 64 := by omega
  have row : (r.val * 64 + c.val) / 64 = r.val := by omega
  have column : (r.val * 64 + c.val) % 64 = c.val := by omega
  rw [Display.pixels_eq_toList_flatten, Vector.getElem?_toList, Vector.getElem?_eq_getElem inside, Vector.getElem_flatten]
  simp only [row, column, Display.pixel, Fin.getElem_fin]

/-- Settles O55: the reply is `s.disp.pixels`, beside the state itself. -/
theorem snapshotIsRowMajor : Obligations.SnapshotIsRowMajor := by
  intro s
  exact ⟨s.disp.pixels, rfl, s.disp.length_pixels, s.disp.getElem?_pixels⟩

end Sys2Proof.Machine
end

section
/-! Unknown (spec/40_sequencer.md R115): what a write of `PC` leaves unchanged, the step that fetches an Unknown word, then
obligation O39. -/

namespace Sys2Proof.Safety

open Sys2Proof.Machine

theorem unchanged_refl (s : State) (p : Part) : unchanged s s p := by
  cases p <;> simp [unchanged]

theorem onlyChanges_refl (ps : List Part) (s : State) : onlyChanges ps s s := fun p _ => unchanged_refl s p

/-- R24: a write of `PC` changes no other part. -/
theorem onlyChanges_setPc (s : State) (a : Addr) : onlyChanges [.pc] s (s.setPc a) := by
  intro p hp
  cases p with
  | pc => exact absurd (List.mem_singleton_self _) hp
  | _ => simp [unchanged]

end Sys2Proof.Safety

namespace Sys2Proof.Machine

open Sys2Proof.Safety

/-- R115 and R246: Unknown answers the state it is given. -/
@[simp] theorem exec_unknown (s : State) : exec .unknown s = .next s := rfl

/-- R111 and R115: of a step that fetches an Unknown word only the advance of the fetch remains. -/
theorem step_unknown {s : State} {w : Word} (hrun : s.run = .running) (hfetch : s.fetch = .ok w)
    (hdecode : decode w = .unknown) : step s = .next s.advance := by
  have hadvance : s.advance.run = .running := by rw [State.advance_run, hrun]
  rw [step, runSequence_runs hrun hfetch, hdecode, exec_unknown, State.commit_next, State.afterExec_running hadvance]

/-- Settles O39: the execution is the identity, and the step is the advance, a write of `PC`. -/
theorem unknownChangesOnlyPc : Obligations.UnknownChangesOnlyPc := by
  intro s
  refine ⟨⟨s, exec_unknown s, onlyChanges_refl [] s⟩, fun w hrun hfetch hdecode => ?_⟩
  exact ⟨s.advance, step_unknown hrun hfetch hdecode, s.advance_pc, onlyChanges_setPc s (s.pc + 2)⟩

end Sys2Proof.Machine
end

section
/-! Control transfers (spec/41_control_flow.md): the next fetch after one, the step that fetches an instruction which completes,
what each skip and jump answers, then obligations O12, O10, O11, O13 and O14. -/

namespace Sys2Proof.Machine

@[simp] theorem State.setPc_pc_self (s : State) : s.setPc s.pc = s := rfl
@[simp] theorem State.advance_setPc (s : State) (a : Addr) : s.advance.setPc a = s.setPc a := rfl
@[simp] theorem State.skipIf_true (s : State) : s.skipIf true = s.skip := rfl
@[simp] theorem State.skipIf_false (s : State) : s.skipIf false = s := rfl

/-- R111 and R140: the advance of the fetch and the skip together move `PC` by 4. -/
theorem State.advance_skip (s : State) : s.advance.skip = s.setPc (s.pc + 4) := by
  rw [State.skip, State.advance_setPc, State.advance_pc, BitVec.add_assoc]
  rfl

theorem State.skipIf_beq_pc (s : State) (a b : Byte) : (s.skipIf (a == b)).pc = if a = b then s.pc + 2 else s.pc := by
  by_cases h : a = b <;> simp [h]

theorem State.skipIf_bne_pc (s : State) (a b : Byte) : (s.skipIf (a != b)).pc = if a = b then s.pc else s.pc + 2 := by
  by_cases h : a = b <;> simp [h]

/-! The words of R84 for the skips and the jumps. -/

@[simp] theorem decode_skipEqImm (x : Reg) (kk : Byte) : decode (wordXKK 0x3 x kk) = .skipEqImm x kk := by simp [decode]
@[simp] theorem decode_skipNeImm (x : Reg) (kk : Byte) : decode (wordXKK 0x4 x kk) = .skipNeImm x kk := by simp [decode]
@[simp] theorem decode_jump (nnn : BitVec 12) : decode (wordNNN 0x1 nnn) = .jump nnn := by simp [decode]
@[simp] theorem decode_jumpAddV0 (nnn : BitVec 12) : decode (wordNNN 0xB nnn) = .jumpAddV0 nnn := by simp [decode]

theorem decode_class5 (x y : Reg) (d : Nibble) :
    decode (wordXYD 0x5 x y d) = if d = 0 then .skipEqReg x y else .unknown := by simp [decode]

theorem decode_class9 (x y : Reg) (d : Nibble) :
    decode (wordXYD 0x9 x y d) = if d = 0 then .skipNeReg x y else .unknown := by simp [decode]

/-! What `exec` answers for each of them. -/

@[simp] theorem exec_skipEqImm (x : Reg) (kk : Byte) (s : State) :
    exec (.skipEqImm x kk) s = .next (s.skipIf (s.reg x == kk)) := rfl
@[simp] theorem exec_skipNeImm (x : Reg) (kk : Byte) (s : State) :
    exec (.skipNeImm x kk) s = .next (s.skipIf (s.reg x != kk)) := rfl
@[simp] theorem exec_skipEqReg (x y : Reg) (s : State) :
    exec (.skipEqReg x y) s = .next (s.skipIf (s.reg x == s.reg y)) := rfl
@[simp] theorem exec_skipNeReg (x y : Reg) (s : State) :
    exec (.skipNeReg x y) s = .next (s.skipIf (s.reg x != s.reg y)) := rfl
@[simp] theorem exec_jump (nnn : BitVec 12) (s : State) : exec (.jump nnn) s = .next (s.setPc (zextNNN nnn)) := rfl
@[simp] theorem exec_jumpAddV0 (nnn : BitVec 12) (s : State) :
    exec (.jumpAddV0 nnn) s = .next (s.setPc (zextNNN nnn + zextByte (s.reg 0))) := rfl

/-- R110: a step whose execution leaves the machine running commits what the execution answers. -/
theorem step_of_exec {s t : State} {w : Word} (hrun : s.run = .running) (hfetch : s.fetch = .ok w)
    (hexec : exec (decode w) s.advance = .next t) (ht : t.run = .running) : step s = .next t := by
  rw [step, runSequence_runs hrun hfetch, hexec, State.commit_next, State.afterExec_running ht]

/-- R141 to R144: each of the four skips, its condition met. -/
theorem exec_skip_taken {i : Instr} {s : State} {x y : Reg} {kk : Byte}
    (h : i = .skipEqImm x kk ∧ s.reg x = kk ∨ i = .skipNeImm x kk ∧ s.reg x ≠ kk ∨
      i = .skipEqReg x y ∧ s.reg x = s.reg y ∨ i = .skipNeReg x y ∧ s.reg x ≠ s.reg y) :
    exec i s = .next s.skip := by
  obtain ⟨rfl, cond⟩ | ⟨rfl, cond⟩ | ⟨rfl, cond⟩ | ⟨rfl, cond⟩ := h
  · rw [exec_skipEqImm, beq_iff_eq.2 cond, State.skipIf_true]
  · rw [exec_skipNeImm, bne_iff_ne.2 cond, State.skipIf_true]
  · rw [exec_skipEqReg, beq_iff_eq.2 cond, State.skipIf_true]
  · rw [exec_skipNeReg, bne_iff_ne.2 cond, State.skipIf_true]

/-- R141 to R144: each of the four skips, its condition not met. -/
theorem exec_skip_not_taken {i : Instr} {s : State} {x y : Reg} {kk : Byte}
    (h : i = .skipEqImm x kk ∧ s.reg x ≠ kk ∨ i = .skipNeImm x kk ∧ s.reg x = kk ∨
      i = .skipEqReg x y ∧ s.reg x ≠ s.reg y ∨ i = .skipNeReg x y ∧ s.reg x = s.reg y) :
    exec i s = .next s := by
  obtain ⟨rfl, cond⟩ | ⟨rfl, cond⟩ | ⟨rfl, cond⟩ | ⟨rfl, cond⟩ := h
  · rw [exec_skipEqImm, beq_eq_false_iff_ne.2 cond, State.skipIf_false]
  · rw [exec_skipNeImm, bne_eq_false_iff_eq.2 cond, State.skipIf_false]
  · rw [exec_skipEqReg, beq_eq_false_iff_ne.2 cond, State.skipIf_false]
  · rw [exec_skipNeReg, bne_eq_false_iff_eq.2 cond, State.skipIf_false]

end Sys2Proof.Machine

namespace Sys2Proof.Safety

open Sys2Proof.Machine

/-- R140: a skip, taken or not, changes `PC` alone. -/
theorem onlyChanges_skipIf (s : State) (p : Bool) : onlyChanges [.pc] s (s.skipIf p) := by
  cases p with
  | true => exact onlyChanges_setPc s (s.pc + 2#16)
  | false => exact onlyChanges_refl [.pc] s

/-- R112: whatever put `PC` above 0xFFE, the fetch from there faults. -/
theorem nextFetchFaults_everywhere (t : State) : nextFetchFaults t := by
  intro hrun habove
  have hfetch : t.fetch = .error (.memoryOutOfBounds (max t.pc.toNat 0x1000)) := State.fetch_error (by omega)
  exact ⟨_, runSequence_fetch_fault hrun hfetch, State.takeFault_run t _⟩

end Sys2Proof.Safety

namespace Sys2Proof.Machine

open Sys2Proof.Safety

/-- Settles O12: the execution after the advance is the skip or the identity, and the machine still runs. -/
theorem takenSkipEndsFourPast : Obligations.TakenSkipEndsFourPast := by
  intro s w x y kk hrun hfetch
  refine ⟨fun taken => ?_, fun notTaken => ?_⟩
  · have hexec : exec (decode w) s.advance = .next (s.setPc (s.pc + 4)) := by
      rw [exec_skip_taken (s := s.advance) taken, State.advance_skip]
    exact ⟨_, step_of_exec hrun hfetch hexec hrun, State.setPc_pc s _, onlyChanges_setPc s _,
      nextFetchFaults_everywhere _⟩
  · have hexec : exec (decode w) s.advance = .next s.advance := exec_skip_not_taken (s := s.advance) notTaken
    exact ⟨_, step_of_exec hrun hfetch hexec hrun, s.advance_pc, onlyChanges_setPc s _⟩

/-- Settles O10: each execution is `skipIf` of its condition. -/
theorem skipsOnImmediate : Obligations.SkipsOnImmediate := by
  intro x kk s
  exact ⟨decode_skipEqImm x kk, decode_skipNeImm x kk,
    ⟨_, exec_skipEqImm x kk s, State.skipIf_beq_pc s _ _, onlyChanges_skipIf s _⟩,
    ⟨_, exec_skipNeImm x kk s, State.skipIf_bne_pc s _ _, onlyChanges_skipIf s _⟩⟩

/-- Settles O11: as O10; where `x = y` the condition is that a register equals itself. -/
theorem skipsOnRegisters : Obligations.SkipsOnRegisters := by
  intro x y s
  refine ⟨by rw [decode_class5, if_pos rfl], by rw [decode_class9, if_pos rfl], fun d hd => ⟨?_, ?_⟩,
    ⟨_, exec_skipEqReg x y s, State.skipIf_beq_pc s _ _, onlyChanges_skipIf s _⟩,
    ⟨_, exec_skipNeReg x y s, State.skipIf_bne_pc s _ _, onlyChanges_skipIf s _⟩,
    ⟨_, exec_skipEqReg x x s, ?_⟩, ⟨_, exec_skipNeReg x x s, ?_⟩⟩
  · rw [decode_class5, if_neg hd]
  · rw [decode_class9, if_neg hd]
  · rw [State.skipIf_beq_pc, if_pos rfl]
  · rw [State.skipIf_bne_pc, if_pos rfl]

/-- R145 and R127: a jump to its own address takes back the advance of its fetch. -/
theorem step_self_jump {nnn : BitVec 12} {s : State} (hrun : s.run = .running) (hfetch : s.fetch = .ok (wordNNN 0x1 nnn))
    (hpc : s.pc.toNat = nnn.toNat) : step s = .next s := by
  have target : zextNNN nnn = s.pc := BitVec.eq_of_toNat_eq (by rw [zextNNN_toNat, hpc])
  have hexec : exec (decode (wordNNN 0x1 nnn)) s.advance = .next s := by
    rw [decode_jump, exec_jump, target, State.advance_setPc, State.setPc_pc_self]
  exact step_of_exec hrun hfetch hexec hrun

/-- Settles O13: the jump is the write of the zero-extended address to `PC`. -/
theorem jumpGoesToAddress : Obligations.JumpGoesToAddress := by
  intro nnn s
  have hpc : (s.setPc (zextNNN nnn)).pc.toNat = nnn.toNat := by rw [State.setPc_pc, zextNNN_toNat]
  refine ⟨decode_jump nnn, ⟨_, exec_jump nnn s, hpc, ?_, onlyChanges_setPc s _, nextFetchFaults_everywhere _⟩,
    step_self_jump⟩
  rw [State.fetch, hpc, State.setPc_mem]

/-- R147: the sum of a 12-bit and an 8-bit number does not wrap in 16 bits. -/
theorem toNat_zextNNN_add_zextByte (nnn : BitVec 12) (b : Byte) :
    (zextNNN nnn + zextByte b).toNat = nnn.toNat + b.toNat := by
  rw [BitVec.toNat_add, zextNNN_toNat, zextByte_toNat]
  omega

/-- Settles O14: the target is the exact sum of two numbers at most 0xFFF and 0xFF. -/
theorem jumpAddV0GoesToSum : Obligations.JumpAddV0GoesToSum := by
  intro nnn s
  have hpc : (s.setPc (zextNNN nnn + zextByte (s.reg 0))).pc.toNat = nnn.toNat + (s.reg 0).toNat :=
    toNat_zextNNN_add_zextByte nnn (s.reg 0)
  have hbound : (s.setPc (zextNNN nnn + zextByte (s.reg 0))).pc.toNat ≤ 0x10FE := by omega
  exact ⟨decode_jumpAddV0 nnn, _, exec_jumpAddV0 nnn s, hpc, hbound, onlyChanges_setPc s _, nextFetchFaults_everywhere _⟩

end Sys2Proof.Machine
end

section
/-! Writes of a register (spec/42_alu.md R172): what one leaves unchanged, the word and the execution of SetImm, then
obligation O19. -/

namespace Sys2Proof.Safety

open Sys2Proof.Machine

theorem onlyChanges_setReg (s : State) (x : Reg) (b : Byte) : onlyChanges [.regs] s (s.setReg x b) := by
  intro p hp
  cases p with
  | regs => exact absurd (List.mem_singleton_self _) hp
  | _ => simp [unchanged]

theorem regsUnchangedBut_setReg (s : State) (x : Reg) (b : Byte) : regsUnchangedBut [x] s (s.setReg x b) := by
  intro k hk
  rw [State.reg_setReg, if_neg (List.ne_of_not_mem_cons hk)]

end Sys2Proof.Safety

namespace Sys2Proof.Machine

open Sys2Proof.Safety

@[simp] theorem State.reg_setReg_self (s : State) (x : Reg) (b : Byte) : (s.setReg x b).reg x = b := by
  rw [State.reg_setReg, if_pos rfl]

@[simp] theorem decode_setImm (x : Reg) (kk : Byte) : decode (wordXKK 0x6 x kk) = .setImm x kk := by simp [decode]
@[simp] theorem exec_setImm (x : Reg) (kk : Byte) (s : State) : exec (.setImm x kk) s = .next (s.setReg x kk) := rfl

/-- Settles O19: the execution is one write of a register, and VF is one of the sixteen. -/
theorem setImmWritesDestination : Obligations.SetImmWritesDestination := by
  intro x kk s
  exact ⟨decode_setImm x kk, s.setReg x kk, exec_setImm x kk s, s.reg_setReg_self x kk, regsUnchangedBut_setReg s x kk,
    onlyChanges_setReg s x kk⟩

end Sys2Proof.Machine
end

section
/-! Writes of the display (spec/43_display.md R211): what one leaves unchanged, the word and the execution of Clear, then
obligation O28. -/

namespace Sys2Proof.Safety

open Sys2Proof.Machine

theorem onlyChanges_setDisp (s : State) (d : Display) : onlyChanges [.display] s (s.setDisp d) := by
  intro p hp
  cases p with
  | display => exact absurd (List.mem_singleton_self _) hp
  | _ => simp [unchanged]

end Sys2Proof.Safety

namespace Sys2Proof.Machine

open Sys2Proof.Safety

@[simp] theorem decode_clear : decode 0x00E0 = .clear := by decide
@[simp] theorem exec_clear (s : State) : exec .clear s = .next (s.setDisp Display.blank) := rfl

/-- Settles O28: the execution is one write of the display, and what it writes is blank. -/
theorem clearMakesEveryPixelFalse : Obligations.ClearMakesEveryPixelFalse := by
  intro s
  have hpixel (c : Fin 64) (r : Fin 32) : (s.setDisp Display.blank).disp.pixel c r = false := by
    rw [State.setDisp_disp, Display.pixel_blank]
  exact ⟨decode_clear, s.setDisp Display.blank, exec_clear s, hpixel, onlyChanges_setDisp s Display.blank⟩

end Sys2Proof.Machine
end

section
/-! Writes of the index register (spec/44_index_memory.md R240): what one leaves unchanged, the word and the execution of
SetIndex, then obligation O33. -/

namespace Sys2Proof.Safety

open Sys2Proof.Machine

theorem onlyChanges_setIndex (s : State) (a : Addr) : onlyChanges [.index] s (s.setIndex a) := by
  intro p hp
  cases p with
  | index => exact absurd (List.mem_singleton_self _) hp
  | _ => simp [unchanged]

end Sys2Proof.Safety

namespace Sys2Proof.Machine

open Sys2Proof.Safety

@[simp] theorem decode_setIndex (nnn : BitVec 12) : decode (wordNNN 0xA nnn) = .setIndex nnn := by simp [decode]
@[simp] theorem exec_setIndex (nnn : BitVec 12) (s : State) : exec (.setIndex nnn) s = .next (s.setIndex (zextNNN nnn)) := rfl

/-- Settles O33: the execution is one write of the index register, and zero extension keeps the value of the address. -/
theorem setIndexWritesI : Obligations.SetIndexWritesI := by
  intro nnn s
  have hvalue : (s.setIndex (zextNNN nnn)).i.toNat = nnn.toNat := by rw [State.setIndex_i, zextNNN_toNat]
  exact ⟨decode_setIndex nnn, s.setIndex (zextNNN nnn), exec_setIndex nnn s, hvalue, onlyChanges_setIndex s _⟩

end Sys2Proof.Machine
end

section
/-! The word and the instruction it encodes (spec/30_encoding.md): a word put together from its own fields, the round trips of
the encoder and the decoder, then obligations O2, O3 and O1. -/

namespace Sys2Proof

/-- Format NNN of R83 takes up the whole word. -/
theorem wordNNN_fields {w : Word} {c : Nibble} (hc : fieldC w = c) : wordNNN c (fieldNNN w) = w := by
  subst hc
  ext i hi
  rw [← BitVec.getLsbD_eq_getElem, ← BitVec.getLsbD_eq_getElem, getLsbD_wordNNN]
  by_cases h : i < 12
  · simp [h, fieldNNN]
  · have hlow : 12 + (i - 12) = i := by omega
    have hhigh : i - 12 < 4 := by omega
    simp [h, fieldC, hlow, hhigh]

/-- Format XKK of R83 takes up the whole word. -/
theorem wordXKK_fields {w : Word} {c : Nibble} {kk : Byte} (hc : fieldC w = c) (hkk : fieldKK w = kk) :
    wordXKK c (fieldX w) kk = w := by
  subst hc hkk
  have hnnn : nibbleX w ++ fieldKK w = fieldNNN w := by
    ext i hi
    rw [← BitVec.getLsbD_eq_getElem, ← BitVec.getLsbD_eq_getElem, BitVec.getLsbD_append]
    by_cases h : i < 8
    · simp [h, hi, fieldKK, fieldNNN]
    · have hlow : 8 + (i - 8) = i := by omega
      have hhigh : i - 8 < 4 := by omega
      simp [h, hi, nibbleX, fieldNNN, hlow, hhigh]
  calc wordXKK (fieldC w) (fieldX w) (fieldKK w)
      = wordNNN (fieldC w) (nibbleX w ++ fieldKK w) := BitVec.append_assoc
    _ = w := by rw [hnnn, wordNNN_fields rfl]

/-- Formats XY and XYN of R83 take up the whole word. -/
theorem wordXYD_fields {w : Word} {c d : Nibble} (hc : fieldC w = c) (hd : fieldD w = d) :
    wordXYD c (fieldX w) (fieldY w) d = w := by
  subst hc hd
  have hkk : nibbleY w ++ fieldD w = fieldKK w := by
    ext i hi
    rw [← BitVec.getLsbD_eq_getElem, ← BitVec.getLsbD_eq_getElem, BitVec.getLsbD_append]
    by_cases h : i < 4
    · simp [h, hi, fieldD, fieldKK]
    · have hlow : 4 + (i - 4) = i := by omega
      have hhigh : i - 4 < 4 := by omega
      simp [h, hi, nibbleY, fieldKK, hlow, hhigh]
  calc wordXYD (fieldC w) (fieldX w) (fieldY w) (fieldD w)
      = wordXKK (fieldC w) (fieldX w) (nibbleY w ++ fieldD w) := BitVec.append_assoc
    _ = w := by rw [hkk, wordXKK_fields rfl rfl]

/-- R84: the word of a well-formed instruction decodes to it. -/
theorem decode_encode {i : Instr} (hwf : i.wellFormed = true) : decode (encode i) = i := by
  cases i with
  | draw x y n =>
    have hn : n < 16 := by simpa [Instr.wellFormed] using hwf
    simp [encode, decode, fieldN, Nat.mod_eq_of_lt hn]
  | clear => decide
  | ret => decide
  | unknown => decide
  | _ => simp [encode, decode, decodeClass8, decodeClassF]

/-- R60 and R80: an instruction's own two bytes are read, and no more. -/
theorem decodeBytes_encodeBytes (i : Instr) (rest : List Byte) :
    decodeBytes (encodeBytes i ++ rest) = .ok (decode (encode i), rest) := by
  simp [encodeBytes, wordBytes, decodeBytes]

/-- Settles O2: the fields of the encoding are read back by the decoder of its class, and two bytes make the word. -/
theorem decodeInvertsEncode : Obligations.DecodeInvertsEncode := by
  intro i hwf
  have hword : decode (encode i) = i := decode_encode hwf
  exact ⟨hword, fun rest => by rw [decodeBytes_encodeBytes, hword]⟩

/-- `i` is Unknown, or a well-formed instruction whose one encoding is `w`. -/
def UnknownOrEncodedAs (i : Instr) (w : Word) : Prop := i = .unknown ∨ i.wellFormed = true ∧ encode i = w

theorem decodeClass0_unknownOrEncodedAs (w : Word) : UnknownOrEncodedAs (decodeClass0 w) w := by
  unfold decodeClass0
  split_ifs with hclear hret
  · exact .inr ⟨rfl, hclear.symm⟩
  · exact .inr ⟨rfl, hret.symm⟩
  · exact .inl rfl

theorem decodeClass8_unknownOrEncodedAs {w : Word} (hc : fieldC w = 0x8#4) : UnknownOrEncodedAs (decodeClass8 w) w := by
  unfold decodeClass8
  split
  case h_10 => exact .inl rfl
  all_goals exact .inr ⟨rfl, wordXYD_fields hc ‹_›⟩

theorem decodeClassF_unknownOrEncodedAs {w : Word} (hc : fieldC w = 0xF#4) : UnknownOrEncodedAs (decodeClassF w) w := by
  unfold decodeClassF
  split_ifs with h1E h33 h55 h65
  · exact .inr ⟨rfl, wordXKK_fields hc h1E⟩
  · exact .inr ⟨rfl, wordXKK_fields hc h33⟩
  · exact .inr ⟨rfl, wordXKK_fields hc h55⟩
  · exact .inr ⟨rfl, wordXKK_fields hc h65⟩
  · exact .inl rfl

/-- R84 and R88, class by class: a decoded word is Unknown or has the format of its class, whose fields are the operands. -/
theorem decode_unknownOrEncodedAs (w : Word) : UnknownOrEncodedAs (decode w) w := by
  unfold decode
  split
  next => exact decodeClass0_unknownOrEncodedAs w
  next hc => exact .inr ⟨rfl, wordNNN_fields hc⟩
  next hc => exact .inr ⟨rfl, wordNNN_fields hc⟩
  next hc => exact .inr ⟨rfl, wordXKK_fields hc rfl⟩
  next hc => exact .inr ⟨rfl, wordXKK_fields hc rfl⟩
  next hc =>
    split_ifs with hd
    · exact .inr ⟨rfl, wordXYD_fields hc hd⟩
    · exact .inl rfl
  next hc => exact .inr ⟨rfl, wordXKK_fields hc rfl⟩
  next hc => exact .inr ⟨rfl, wordXKK_fields hc rfl⟩
  next hc => exact decodeClass8_unknownOrEncodedAs hc
  next hc =>
    split_ifs with hd
    · exact .inr ⟨rfl, wordXYD_fields hc hd⟩
    · exact .inl rfl
  next hc => exact .inr ⟨rfl, wordNNN_fields hc⟩
  next hc => exact .inr ⟨rfl, wordNNN_fields hc⟩
  next hc => exact .inr ⟨rfl, wordXKK_fields hc rfl⟩
  next hc =>
    refine .inr ⟨decide_eq_true (fieldD w).isLt, wordXYD_fields hc ?_⟩
    simp [fieldN]
  next hc => exact decodeClassF_unknownOrEncodedAs hc
  next => exact .inl rfl

/-- Settles O3: the fields that the decoder reads, in the format of the class, take up the whole word. -/
theorem encodeInvertsDecode : Obligations.EncodeInvertsDecode := by
  intro w
  obtain hunknown | ⟨hwf, hencode⟩ := decode_unknownOrEncodedAs w
  · exact ⟨by rw [hunknown]; rfl, fun hne => absurd hunknown hne⟩
  · exact ⟨hwf, fun _ => hencode⟩

/-- Settles O1: nineteen closed evaluations of the decoder. -/
theorem tableWordsDecode : Obligations.TableWordsDecode := by
  unfold Obligations.TableWordsDecode
  decide

end Sys2Proof
end

section
/-! The opcode table (spec/30_encoding.md R84, R85, R88): which fields of a word a mask tests, the decoder as the row that
matches, then obligations O4 and O5. -/

namespace Sys2Proof

theorem wordNNN_ext {w p : Word} (hc : fieldC w = fieldC p) (hnnn : fieldNNN w = fieldNNN p) : w = p := by
  rw [← wordNNN_fields (w := w) rfl, ← wordNNN_fields (w := p) rfl, hc, hnnn]

theorem wordXKK_ext {w p : Word} (hc : fieldC w = fieldC p) (hx : fieldX w = fieldX p) (hkk : fieldKK w = fieldKK p) :
    w = p := by
  rw [← wordXKK_fields (w := w) rfl rfl, ← wordXKK_fields (w := p) rfl rfl, hc, hx, hkk]

theorem wordXYD_ext {w p : Word} (hc : fieldC w = fieldC p) (hx : fieldX w = fieldX p) (hy : fieldY w = fieldY p)
    (hd : fieldD w = fieldD p) : w = p := by
  rw [← wordXYD_fields (w := w) rfl rfl, ← wordXYD_fields (w := p) rfl rfl, hc, hx, hy, hd]

/-- Mask FFFF tests every bit. -/
theorem and_FFFF (w : Word) : w &&& 0xFFFF#16 = w := BitVec.and_allOnes

/-- Mask F000 tests the class (R84). -/
theorem and_F000 (w : Word) : w &&& 0xF000#16 = wordNNN (fieldC w) 0 := by
  apply wordNNN_ext
  · rw [fieldC_wordNNN]
    exact BitVec.extractLsb'_and.trans (BitVec.and_allOnes (x := fieldC w))
  · rw [fieldNNN_wordNNN]
    exact BitVec.extractLsb'_and.trans (BitVec.and_zero (x := fieldNNN w))

/-- Mask F0FF tests the class and the low byte (R84). -/
theorem and_F0FF (w : Word) : w &&& 0xF0FF#16 = wordXKK (fieldC w) 0 (fieldKK w) := by
  apply wordXKK_ext
  · rw [fieldC_wordXKK]
    exact BitVec.extractLsb'_and.trans (BitVec.and_allOnes (x := fieldC w))
  · rw [fieldX_wordXKK]
    exact congrArg BitVec.toFin (BitVec.extractLsb'_and.trans (BitVec.and_zero (x := nibbleX w)))
  · rw [fieldKK_wordXKK]
    exact BitVec.extractLsb'_and.trans (BitVec.and_allOnes (x := fieldKK w))

/-- Mask F00F tests the class and the discriminator (R84). -/
theorem and_F00F (w : Word) : w &&& 0xF00F#16 = wordXYD (fieldC w) 0 0 (fieldD w) := by
  apply wordXYD_ext
  · rw [fieldC_wordXYD]
    exact BitVec.extractLsb'_and.trans (BitVec.and_allOnes (x := fieldC w))
  · rw [fieldX_wordXYD]
    exact congrArg BitVec.toFin (BitVec.extractLsb'_and.trans (BitVec.and_zero (x := nibbleX w)))
  · rw [fieldY_wordXYD]
    exact congrArg BitVec.toFin (BitVec.extractLsb'_and.trans (BitVec.and_zero (x := nibbleY w)))
  · rw [fieldD_wordXYD]
    exact BitVec.extractLsb'_and.trans (BitVec.and_allOnes (x := fieldD w))

/-! When a word with fields of its own is a given one: the fields of the given word are written out as bits, so that they
evaluate where it is a pattern of the table. -/

theorem wordNNN_eq_iff (c : Nibble) (nnn : BitVec 12) (p : Word) :
    wordNNN c nnn = p ↔ c = p.extractLsb' 12 4 ∧ nnn = p.extractLsb' 0 12 := by
  constructor
  · rintro rfl
    exact ⟨(fieldC_wordNNN c nnn).symm, (fieldNNN_wordNNN c nnn).symm⟩
  · rintro ⟨rfl, rfl⟩
    exact wordNNN_fields rfl

theorem wordXKK_eq_iff (c : Nibble) (x : Reg) (kk : Byte) (p : Word) :
    wordXKK c x kk = p ↔ c = p.extractLsb' 12 4 ∧ x = (p.extractLsb' 8 4).toFin ∧ kk = p.extractLsb' 0 8 := by
  constructor
  · rintro rfl
    exact ⟨(fieldC_wordXKK c x kk).symm, (fieldX_wordXKK c x kk).symm, (fieldKK_wordXKK c x kk).symm⟩
  · rintro ⟨rfl, rfl, rfl⟩
    exact wordXKK_fields rfl rfl

theorem wordXYD_eq_iff (c : Nibble) (x y : Reg) (d : Nibble) (p : Word) :
    wordXYD c x y d = p ↔ c = p.extractLsb' 12 4 ∧ x = (p.extractLsb' 8 4).toFin ∧ y = (p.extractLsb' 4 4).toFin ∧
      d = p.extractLsb' 0 4 := by
  constructor
  · rintro rfl
    exact ⟨(fieldC_wordXYD c x y d).symm, (fieldX_wordXYD c x y d).symm, (fieldY_wordXYD c x y d).symm,
      (fieldD_wordXYD c x y d).symm⟩
  · rintro ⟨rfl, rfl, rfl, rfl⟩
    exact wordXYD_fields rfl rfl

@[simp] theorem decode_ret : decode 0x00EE = .ret := by decide

/-- R84 is sound: what a row tests of a word is what the decoder selects its operation by. -/
theorem op_eq_decode_of_hit (w : Word) : ∀ r ∈ opcodeTable, r.hit w = true → r.op w = decode w := by
  refine List.forall_mem_cons.2 ⟨fun hhit => ?_, List.forall_mem_cons.2 ⟨fun hhit => ?_, ?_⟩⟩
  · obtain rfl : w = 0x00E0 := by simpa [TableRow.hit, and_FFFF] using hhit
    rfl
  · obtain rfl : w = 0x00EE := by simpa [TableRow.hit, and_FFFF] using hhit
    rfl
  · simp +contextual [tableRowsClass8, tableRowsHigh, TableRow.hit, and_F000, and_F0FF, and_F00F, wordNNN_eq_iff,
      wordXKK_eq_iff, wordXYD_eq_iff, decode, decodeClass8, decodeClassF]

/-! R88, class by class: where the decoder of a class answers Unknown. -/

theorem decodeClass0_eq_unknown_iff (w : Word) : decodeClass0 w = .unknown ↔ w ≠ 0x00E0 ∧ w ≠ 0x00EE := by
  unfold decodeClass0
  split_ifs <;> simp_all

theorem decodeClass8_eq_unknown_iff (w : Word) :
    decodeClass8 w = .unknown ↔ fieldD w ∈ [0x8, 0x9, 0xA, 0xB, 0xC, 0xD, 0xF] := by
  unfold decodeClass8
  generalize fieldD w = d
  split
  case h_10 =>
    revert d
    decide
  all_goals simp

theorem decodeClassF_eq_unknown_iff (w : Word) : decodeClassF w = .unknown ↔ fieldKK w ∉ [0x1E, 0x33, 0x55, 0x65] := by
  unfold decodeClassF
  split_ifs <;> simp_all

/-- Settles O5: a class other than 0, 5, 8, 9, E and F has one operation for all of its words. -/
theorem unknownWordsExactly : Obligations.UnknownWordsExactly := by
  intro w
  unfold decode
  split
  case h_1 hc => simp [hc, decodeClass0_eq_unknown_iff]
  case h_9 hc => simp [hc, decodeClass8_eq_unknown_iff]
  case h_15 hc => simp [hc, decodeClassF_eq_unknown_iff]
  case h_16 =>
    have hc : fieldC w = 0xE#4 := by
      generalize fieldC w = c at *
      revert c
      decide
    simp [hc]
  all_goals simp [*]

/-- R84 is complete: a word that no row matches is one of those that R88 lists. -/
theorem decode_eq_unknown_of_no_hit {w : Word} (h : ∀ r ∈ opcodeTable, ¬ r.hit w = true) : decode w = .unknown := by
  simp [opcodeTable, tableRowsLow, tableRowsClass8, tableRowsHigh, TableRow.hit, and_FFFF, and_F000, and_F0FF, and_F00F,
    wordNNN_eq_iff, wordXKK_eq_iff, wordXYD_eq_iff] at h
  unfold decode
  split
  case h_1 => simp [decodeClass0_eq_unknown_iff, h]
  case h_9 => simp_all [decodeClass8]
  case h_15 => simp_all [decodeClassF]
  all_goals simp_all

/-- Settles O4: the first row that matches is one of the table's, whatever the order, and all that match agree. -/
theorem decodeIsTheTableInAnyOrder : Obligations.DecodeIsTheTableInAnyOrder := by
  intro rows hperm w
  unfold decodeBy
  cases hfind : rows.find? (TableRow.hit w) with
  | some r => exact op_eq_decode_of_hit w r (hperm.mem_iff.1 (List.mem_of_find?_eq_some hfind)) (List.find?_some hfind)
  | none =>
    exact (decode_eq_unknown_of_no_hit fun r hr => List.find?_eq_none.1 hfind r (hperm.mem_iff.2 hr)).symm

end Sys2Proof
end

section
/-! The frame of each update of the state, and how frames compose (spec/10_state.md R33). -/

namespace Sys2Proof.Safety

open Sys2Proof.Machine

theorem unchanged_trans {s t u : State} {p : Part} (hst : unchanged s t p) (htu : unchanged t u p) : unchanged s u p := by
  cases p <;> simp_all [unchanged]

theorem onlyChanges_trans {ps : List Part} {s t u : State} (hst : onlyChanges ps s t) (htu : onlyChanges ps t u) :
    onlyChanges ps s u := fun p hp => unchanged_trans (hst p hp) (htu p hp)

theorem onlyChanges_mono {ps qs : List Part} {s t : State} (hsub : ps ⊆ qs) (h : onlyChanges ps s t) : onlyChanges qs s t :=
  fun p hp => h p fun hmem => hp (hsub hmem)

theorem onlyChanges_setFlag (s : State) (f : Byte) : onlyChanges [.regs] s (s.setFlag f) := onlyChanges_setReg s vf f

theorem onlyChanges_setResult (s : State) (x : Reg) (result flag : Byte) :
    onlyChanges [.regs] s (s.setResult x result flag) :=
  onlyChanges_trans (onlyChanges_setReg s x result) (onlyChanges_setFlag _ flag)

theorem onlyChanges_setRegs (s : State) (bs : List Byte) : onlyChanges [.regs] s (s.setRegs bs) := by
  intro p hp
  cases p <;> simp_all [unchanged]

theorem onlyChanges_setStack (s : State) (st : List Addr) : onlyChanges [.stack] s (s.setStack st) := by
  intro p hp
  cases p <;> simp_all [unchanged]

theorem onlyChanges_setMem (s : State) (m : Memory) : onlyChanges [.memory] s (s.setMem m) := by
  intro p hp
  cases p <;> simp_all [unchanged]

theorem onlyChanges_setDt (s : State) (b : Byte) : onlyChanges [.timer] s (s.setDt b) := by
  intro p hp
  cases p <;> simp_all [unchanged]

theorem onlyChanges_takeFault (s : State) (f : Fault) : onlyChanges [.run] s (s.takeFault f) := by
  intro p hp
  cases p <;> simp_all [unchanged]

theorem onlyChanges_countDraw (s : State) : onlyChanges [.draws] s s.countDraw := by
  intro p hp
  cases p <;> simp_all [unchanged]

/-- R25 and R24: a change of the stack and then of `PC`, as Call and Return make it. -/
theorem onlyChanges_setStack_setPc (s : State) (st : List Addr) (a : Addr) :
    onlyChanges [.pc, .stack] s ((s.setStack st).setPc a) :=
  onlyChanges_trans (onlyChanges_mono (by simp) (onlyChanges_setStack s st))
    (onlyChanges_mono (by simp) (onlyChanges_setPc _ a))

theorem onlyChanges_randomWith (r : Byte) (x : Reg) (kk : Byte) (s : State) :
    onlyChanges [.regs, .draws] s (randomWith r x kk s) :=
  onlyChanges_trans (onlyChanges_mono (by simp) (onlyChanges_setReg s x (r &&& kk)))
    (onlyChanges_mono (by simp) (onlyChanges_countDraw _))

theorem onlyChanges_drawRows (s : State) (x y : Reg) (rows : List Byte) :
    onlyChanges [.regs, .display] s (s.drawRows x y rows) :=
  onlyChanges_trans (onlyChanges_mono (by simp) (onlyChanges_setDisp s _))
    (onlyChanges_mono (by simp) (onlyChanges_setFlag _ _))

/-- R118 and R274: what taking a fault means. -/
theorem faultedOnly_takeFault (s : State) (f : Fault) : faultedOnly f s (s.takeFault f) :=
  ⟨s.takeFault_run f, onlyChanges_takeFault s f⟩

end Sys2Proof.Safety
end

section
/-! What an instruction can do (spec/40_sequencer.md R114, spec/60_exceptions.md R270): the shapes of the state it completes
in, the faults it can take, and that every execution is one of these. -/

namespace Sys2Proof.Machine

open Sys2Proof.Safety

/-- `i`, executed in `s`, completes in `t`: the updates that the meanings of R141 to R246 make. -/
inductive Completes (s : State) : Instr → State → Prop
  | nothing : Completes s .unknown s
  | clear : Completes s .clear (s.setDisp Display.blank)
  | transfer {i : Instr} (a : Addr) (hi : transfersControl i = true) (hf : writesFlag i = false) :
      Completes s i (s.setPc a)
  | call (nnn : BitVec 12) (room : s.stackDepth ≠ some s.stack.length) :
      Completes s (.call nnn) ((s.setStack (s.stack ++ [s.pc])).setPc (zextNNN nnn))
  | ret (st : List Addr) (a : Addr) (top : s.stack = st ++ [a]) : Completes s .ret ((s.setStack st).setPc a)
  | register {i : Instr} {x : Reg} (b : Byte) (hx : x ∈ destinations i) (hf : writesFlag i = false) :
      Completes s i (s.setReg x b)
  | result {i : Instr} {x : Reg} (b : Byte) (flag : Bool) (hx : x ∈ destinations i) (hf : writesFlag i = true) :
      Completes s i (s.setResult x b (flagOf flag))
  | random (r : Byte) (x : Reg) (kk : Byte) : Completes s (.random x kk) (randomWith r x kk s)
  | load (x : Reg) (bs : List Byte) (hlen : bs.length = x.val + 1) : Completes s (.loadRegs x) (s.setRegs bs)
  | draw (x y : Reg) (n : Nat) (rows : List Byte) : Completes s (.draw x y n) (s.drawRows x y rows)
  | index {i : Instr} (a : Addr) (hi : writableParts i = [.index]) (hf : writesFlag i = false) :
      Completes s i (s.setIndex a)
  | store {i : Instr} (bs : List Byte) (m : Memory) (hi : writableParts i = [.memory]) (hf : writesFlag i = false)
      (hm : s.mem.writeBytes s.base bs = .ok m) : Completes s i (s.setMem m)

/-- `i`, executed in `s`, can take the fault `f` (R271 to R273, R276). -/
inductive Faults (s : State) : Instr → Fault → Prop
  | access {i : Instr} (hi : accessesMemory i = true) : Faults s i (.memoryOutOfBounds (max s.base 0x1000))
  | underflow (empty : s.stack = []) : Faults s .ret .stackUnderflow
  | overflow (nnn : BitVec 12) (full : s.stackDepth = some s.stack.length) : Faults s (.call nnn) (.stackOverflow s.pc)

/-- `o` is what executing `i` in `s` answers: a state that `i` completes in, or `s` with a fault of `i` taken. -/
def CompletesOrFaults (s : State) (i : Instr) (o : Host.Outcome State Fault Refusal) : Prop :=
  (∃ t, Completes s i t ∧ o = .next t) ∨ ∃ f, Faults s i f ∧ o = .next (s.takeFault f)

theorem Completes.next {s t : State} {i : Instr} (h : Completes s i t) : CompletesOrFaults s i (.next t) := .inl ⟨t, h, rfl⟩

theorem Faults.next {s : State} {i : Instr} {f : Fault} (h : Faults s i f) : CompletesOrFaults s i (.next (s.takeFault f)) :=
  .inr ⟨f, h, rfl⟩

/-- R62 and R276: a read of `n` bytes gives that many, or the fault of the first address above 0xFFF. -/
theorem Memory.readBytes_cases (m : Memory) (base n : Nat) :
    (∃ bs, bs.length = n ∧ m.readBytes base n = .ok bs) ∨
      m.readBytes base n = .error (.memoryOutOfBounds (max base 0x1000)) := by
  by_cases inside : n = 0 ∨ base + n ≤ 0x1000
  · exact .inl ⟨_, by simp, readBytes_ok m base n inside⟩
  · exact .inr (readBytes_error m base n (by omega) (by omega))

/-- R62 and R276: a write of bytes gives a memory, or, where it runs past the end, the fault of the first address above
0xFFF. -/
theorem Memory.writeBytes_cases (m : Memory) (base : Nat) (bs : List Byte) :
    (∃ m', m.writeBytes base bs = .ok m') ∨
      0x1000 < base + bs.length ∧ m.writeBytes base bs = .error (.memoryOutOfBounds (max base 0x1000)) := by
  induction bs generalizing m base with
  | nil => exact .inl ⟨m, rfl⟩
  | cons b bs ih =>
    by_cases past : 0x1000 < base + (b :: bs).length
    · exact .inr ⟨past, writeBytes_error m base (b :: bs) (by simp) past⟩
    · rw [List.length_cons] at past
      have hb : base < 0x1000 := by omega
      obtain hok | ⟨hpast, -⟩ := ih (m.poke base b) (base + 1)
      · simpa only [writeBytes, writeByte_ok b hb] using Or.inl hok
      · omega

theorem State.skipIf_eq_setPc (s : State) (p : Bool) : s.skipIf p = s.setPc (if p then s.pc + 2#16 else s.pc) := by
  cases p <;> rfl

theorem completesOrFaults_skipIf {s : State} {i : Instr} (p : Bool) (hi : transfersControl i = true)
    (hf : writesFlag i = false) : CompletesOrFaults s i (.next (s.skipIf p)) := by
  rw [State.skipIf_eq_setPc]
  exact (Completes.transfer _ hi hf).next

theorem completesOrFaults_call (s : State) (nnn : BitVec 12) : CompletesOrFaults s (.call nnn) (execCall nnn s) := by
  rw [execCall, State.attempt_eq]
  by_cases full : s.stackDepth = some s.stack.length
  · rw [State.push_full s.pc full]
    exact (Faults.overflow nnn full).next
  · rw [State.push_room s.pc full]
    exact (Completes.call nnn full).next

theorem completesOrFaults_return (s : State) : CompletesOrFaults s .ret (execReturn s) := by
  rw [execReturn, State.attempt_eq]
  obtain empty | ⟨st, a, top⟩ := s.stack.eq_nil_or_concat'
  · rw [State.popPc_empty empty]
    exact (Faults.underflow empty).next
  · rw [State.popPc_append top]
    exact (Completes.ret st a top).next

theorem completesOrFaults_draw (s : State) (x y : Reg) (n : Nat) :
    CompletesOrFaults s (.draw x y n) (execDraw x y n s) := by
  rw [execDraw, State.attempt_eq]
  obtain ⟨rows, -, hread⟩ | hread := s.mem.readBytes_cases s.base n
  · rw [hread]
    exact (Completes.draw x y n rows).next
  · rw [hread]
    exact (Faults.access rfl).next

theorem completesOrFaults_loadRegs (s : State) (x : Reg) : CompletesOrFaults s (.loadRegs x) (execLoadRegs x s) := by
  rw [execLoadRegs, State.attempt_eq]
  obtain ⟨bs, hlen, hread⟩ | hread := s.mem.readBytes_cases s.base (x.val + 1)
  · rw [hread]
    exact (Completes.load x bs hlen).next
  · rw [hread]
    exact (Faults.access rfl).next

theorem completesOrFaults_store {s : State} {i : Instr} (bs : List Byte) (hi : writableParts i = [.memory])
    (hf : writesFlag i = false) (ha : accessesMemory i = true) : CompletesOrFaults s i (s.attempt (s.storeAtIndex bs)) := by
  rw [State.storeAtIndex, State.attempt_eq]
  obtain ⟨m, hwrite⟩ | ⟨-, hwrite⟩ := s.mem.writeBytes_cases s.base bs
  · rw [hwrite]
    exact (Completes.store bs m hi hf hwrite).next
  · rw [hwrite]
    exact (Faults.access ha).next

/-- R114 and R116: every execution, with whatever draw, completes or takes one fault of the instruction. -/
theorem execWith_completesOrFaults (r : Byte) (i : Instr) (s : State) : CompletesOrFaults s i (execWith r i s) := by
  cases i with
  | clear => exact Completes.clear.next
  | ret => exact completesOrFaults_return s
  | jump nnn => exact (Completes.transfer _ rfl rfl).next
  | call nnn => exact completesOrFaults_call s nnn
  | skipEqImm x kk => exact completesOrFaults_skipIf _ rfl rfl
  | skipNeImm x kk => exact completesOrFaults_skipIf _ rfl rfl
  | skipEqReg x y => exact completesOrFaults_skipIf _ rfl rfl
  | skipNeReg x y => exact completesOrFaults_skipIf _ rfl rfl
  | setImm x kk => exact (Completes.register _ (List.mem_singleton_self x) rfl).next
  | addImm x kk => exact (Completes.register _ (List.mem_singleton_self x) rfl).next
  | copy x y => exact (Completes.register _ (List.mem_singleton_self x) rfl).next
  | or x y => exact (Completes.register _ (List.mem_singleton_self x) rfl).next
  | and x y => exact (Completes.register _ (List.mem_singleton_self x) rfl).next
  | xor x y => exact (Completes.register _ (List.mem_singleton_self x) rfl).next
  | addCarry x y => exact (Completes.result _ _ (List.mem_singleton_self x) rfl).next
  | subBorrow x y => exact (Completes.result _ _ (List.mem_singleton_self x) rfl).next
  | shiftRight x y => exact (Completes.result _ _ (List.mem_singleton_self x) rfl).next
  | subnBorrow x y => exact (Completes.result _ _ (List.mem_singleton_self x) rfl).next
  | shiftLeft x y => exact (Completes.result _ _ (List.mem_singleton_self x) rfl).next
  | setIndex nnn => exact (Completes.index _ rfl rfl).next
  | jumpAddV0 nnn => exact (Completes.transfer _ rfl rfl).next
  | random x kk => exact (Completes.random r x kk).next
  | draw x y n => exact completesOrFaults_draw s x y n
  | addToIndex x => exact (Completes.index _ rfl rfl).next
  | storeBCD x => exact completesOrFaults_store _ rfl rfl rfl
  | storeRegs x => exact completesOrFaults_store _ rfl rfl rfl
  | loadRegs x => exact completesOrFaults_loadRegs s x
  | unknown => exact Completes.nothing.next

/-- R125: `exec` is the execution with the free draw. -/
theorem exec_eq_execWith (i : Instr) (s : State) : exec i s = execWith (Config.randomByte s.draws) i s := by
  cases i <;> rfl

theorem exec_completesOrFaults (i : Instr) (s : State) : CompletesOrFaults s i (exec i s) := by
  rw [exec_eq_execWith]
  exact execWith_completesOrFaults _ i s

/-- An execution that answers `t` has completed in `t`, or taken a fault over the state it started from. -/
theorem exec_cases {i : Instr} {s t : State} (h : exec i s = .next t) :
    Completes s i t ∨ ∃ f, Faults s i f ∧ t = s.takeFault f := by
  obtain ⟨u, hu, hexec⟩ | ⟨f, hf, hexec⟩ := exec_completesOrFaults i s
  · rw [hexec] at h
    cases h
    exact .inl hu
  · rw [hexec] at h
    cases h
    exact .inr ⟨f, hf, rfl⟩

/-! What completing leaves unchanged, shape by shape. -/

namespace Completes

variable {s t : State} {i : Instr}

/-- R116: no instruction that completes changes the run state. -/
theorem run_eq (h : Completes s i t) : t.run = s.run := by
  cases h <;> simp [State.drawRows]

/-- R20 and R22: a register is written as a destination, VF also as a flag. -/
theorem reg_eq (h : Completes s i t) {k : Reg} (hk : k ∉ destinations i) (hflag : ¬ (k = vf ∧ writesFlag i = true)) :
    t.reg k = s.reg k := by
  cases h with
  | register b hx hf => rw [State.reg_setReg, if_neg (ne_of_mem_of_not_mem hx hk).symm]
  | result b flag hx hf =>
    rw [State.reg_setResult, if_neg fun hvf => hflag ⟨hvf, hf⟩, if_neg (ne_of_mem_of_not_mem hx hk).symm]
  | random r x kk => rw [reg_randomWith, if_neg (List.ne_of_not_mem_cons hk)]
  | load x bs hlen =>
    have hkx : x.val < k.val := by simpa [destinations] using hk
    rw [State.reg_setRegs, List.getD_eq_default]
    omega
  | draw x y n rows => rw [State.drawRows, State.reg_setFlag, if_neg fun hvf => hflag ⟨hvf, rfl⟩, State.reg_setDisp]
  | _ => simp

/-- R24: only the control transfers write `PC`. -/
theorem pc_eq (h : Completes s i t) (hi : transfersControl i = false) : t.pc = s.pc := by
  cases h with
  | transfer a htransfers => simp [hi] at htransfers
  | call nnn room => cases hi
  | ret st a top => cases hi
  | _ => simp [State.drawRows]

/-- R23, R25, R27 and R28: the other parts that are written are those of the instruction. -/
theorem onlyChanges_writableParts (h : Completes s i t) : onlyChanges ([.regs, .pc] ++ writableParts i) s t := by
  cases h with
  | nothing => exact onlyChanges_refl _ s
  | clear => exact onlyChanges_mono (by simp [writableParts]) (onlyChanges_setDisp s _)
  | transfer a => exact onlyChanges_mono (by simp) (onlyChanges_setPc s a)
  | call nnn room => exact onlyChanges_mono (by simp [writableParts]) (onlyChanges_setStack_setPc s _ _)
  | ret st a top => exact onlyChanges_mono (by simp [writableParts]) (onlyChanges_setStack_setPc s _ _)
  | register b => exact onlyChanges_mono (by simp) (onlyChanges_setReg s _ b)
  | result b flag => exact onlyChanges_mono (by simp) (onlyChanges_setResult s _ b _)
  | random r x kk => exact onlyChanges_mono (by simp [writableParts]) (onlyChanges_randomWith r x kk s)
  | load x bs hlen => exact onlyChanges_mono (by simp) (onlyChanges_setRegs s bs)
  | draw x y n rows => exact onlyChanges_mono (by simp [writableParts]) (onlyChanges_drawRows s x y rows)
  | index a hi => exact onlyChanges_mono (by simp [hi]) (onlyChanges_setIndex s a)
  | store bs m hi => exact onlyChanges_mono (by simp [hi]) (onlyChanges_setMem s m)

/-- R170: the flag of a flag writer is 0 or 1. -/
theorem reg_vf_zero_or_one (h : Completes s i t) (hi : writesFlag i = true) : t.reg vf = 0 ∨ t.reg vf = 1 := by
  cases h with
  | result b flag => simpa using flagOf_zero_or_one flag
  | draw x y n rows => simpa [State.drawRows, collisionFlag] using flagOf_zero_or_one _
  | _ => simp_all [writesFlag]

end Completes

end Sys2Proof.Machine
end

section
/-! Whole-machine rules of one execution (spec/10_state.md R22 to R28, spec/60_exceptions.md R270): obligations O43, O26, O27,
O46 and O47, each read off the shapes of `Completes` and `Faults`. -/

namespace Sys2Proof.Machine

open Sys2Proof.Safety

/-- Settles O43: completing leaves the run state alone, and a fault is taken over the state itself. -/
theorem execCompletesOrFaultsWhole : Obligations.ExecCompletesOrFaultsWhole := by
  intro i s
  obtain ⟨t, ht, hexec⟩ | ⟨f, -, hexec⟩ := exec_completesOrFaults i s
  · exact ⟨t, hexec, .inl ht.run_eq⟩
  · exact ⟨s.takeFault f, hexec, .inr ⟨f, rfl⟩⟩

/-- An execution from a running state that leaves it running has completed. -/
theorem completes_of_running {i : Instr} {s t : State} (hexec : exec i s = .next t) (ht : t.run = .running) :
    Completes s i t := by
  obtain h | ⟨f, -, rfl⟩ := exec_cases hexec
  · exact h
  · cases ht

/-- An execution from a running state that leaves a fault recorded has taken a fault of its own. -/
theorem faults_of_faulted {i : Instr} {s t : State} {f : Fault} (hrun : s.run = .running) (hexec : exec i s = .next t)
    (ht : t.run = .faulted f) : Faults s i f := by
  obtain h | ⟨g, hg, rfl⟩ := exec_cases hexec
  · rw [h.run_eq, hrun] at ht
    cases ht
  · cases ht
    exact hg

/-- Settles O26: VF is neither a destination nor a flag, and a fault leaves every register. -/
theorem onlyFlagWritersTouchVF : Obligations.OnlyFlagWritersTouchVF := by
  intro i s t hflag hdest hexec
  obtain h | ⟨f, -, rfl⟩ := exec_cases hexec
  · exact h.reg_eq hdest (by simp [hflag])
  · exact s.reg_takeFault f vf

/-- Settles O27: the flag is written last, and is 0 or 1. -/
theorem flagValuesAreZeroOrOne : Obligations.FlagValuesAreZeroOrOne := by
  intro i s t hflag _ hexec ht
  exact (completes_of_running hexec ht).reg_vf_zero_or_one hflag

/-- Settles O46: each fault has one rule that raises it. -/
theorem faultsByInstruction : Obligations.FaultsByInstruction := by
  intro i s t hrun hexec
  refine ⟨fun a ht => ?_, fun ht => ?_, fun a ht => ?_⟩
  · cases faults_of_faulted hrun hexec ht with
    | access hi => exact ⟨hi, rfl⟩
  · cases faults_of_faulted hrun hexec ht with
    | underflow empty => exact ⟨rfl, empty⟩
  · cases faults_of_faulted hrun hexec ht with
    | overflow nnn full => exact ⟨⟨nnn, rfl⟩, rfl, full⟩

/-- Settles O47: the frames of the registers, of `PC` and of the other parts. -/
theorem eachPartHasItsWriters : Obligations.EachPartHasItsWriters := by
  intro i s t _ hexec ht
  have h : Completes s i t := completes_of_running hexec ht
  exact ⟨fun _ hdest hflag => h.reg_eq hdest hflag, h.pc_eq, h.onlyChanges_writableParts⟩

end Sys2Proof.Machine
end

section
/-! What a step can do (spec/40_sequencer.md R110 to R119), for every draw, then obligations O42, O44, O48, O40, O41, O57, O58
and O45. -/

namespace Sys2Proof.Machine

open Sys2Proof.Safety

/-- R112: a fetch gives a word, or the fault of the first address above 0xFFF. -/
theorem State.fetch_cases (s : State) :
    (∃ w, s.fetch = .ok w) ∨ s.fetch = .error (.memoryOutOfBounds (max s.pc.toNat 0x1000)) := by
  by_cases inside : s.pc.toNat + 1 < 0x1000
  · exact .inl ⟨_, State.fetch_ok inside⟩
  · exact .inr (State.fetch_error (Nat.not_lt.1 inside))

/-- A step from `s` can take the fault `f`: in its fetch, or in the execution of the word fetched. -/
inductive StepFaults (s : State) : Fault → Prop
  | fetch (h : s.fetch = .error (.memoryOutOfBounds (max s.pc.toNat 0x1000))) :
      StepFaults s (.memoryOutOfBounds (max s.pc.toNat 0x1000))
  | execute {w : Word} {f : Fault} (h : s.fetch = .ok w) (hf : Faults s.advance (decode w) f) : StepFaults s f

/-- R110 and R118: with whatever draw, a running machine's step is the completion of the fetched instruction, or takes one
fault over the state before it. -/
theorem stepWith_cases (r : Byte) {s : State} (hrun : s.run = .running) :
    (∃ w t, s.fetch = .ok w ∧ Completes s.advance (decode w) t ∧ stepWith r s = .next t) ∨
      ∃ f, StepFaults s f ∧ stepWith r s = .next (s.takeFault f) := by
  obtain ⟨w, hfetch⟩ | hfetch := s.fetch_cases
  · rw [stepWith, runSequence_runs hrun hfetch]
    obtain ⟨t, ht, hexec⟩ | ⟨f, hf, hexec⟩ := execWith_completesOrFaults r (decode w) s.advance
    · have hrunning : t.run = .running := by rw [ht.run_eq, State.advance_run, hrun]
      rw [hexec, State.commit_next, State.afterExec_running hrunning]
      exact .inl ⟨w, t, hfetch, ht, rfl⟩
    · rw [hexec, State.commit_next, State.afterExec_faulted (s.advance.takeFault_run f)]
      exact .inr ⟨f, .execute hfetch hf, rfl⟩
  · exact .inr ⟨_, .fetch hfetch, runSequence_fetch_fault hrun hfetch⟩

/-- R125: an operation other than Random does not read the draw. -/
theorem execWith_eq_exec {i : Instr} (hi : ∀ x kk, i ≠ .random x kk) (r : Byte) (s : State) :
    execWith r i s = exec i s := by
  cases i with
  | random x kk => exact absurd rfl (hi x kk)
  | _ => rfl

/-- R125: the machine's own step is the host's, for the free draw. -/
theorem step_eq_stepWith (s : State) : step s = stepWith (Config.randomByte s.draws) s := by
  unfold step stepWith runSequence
  simp only [exec_eq_execWith, State.advance_draws]

/-- Settles O42: a step of a running machine ends in one of two next states. -/
theorem runningStepAnswersNext : Obligations.RunningStepAnswersNext := by
  intro s hrun
  rw [step_eq_stepWith]
  obtain ⟨w, t, -, -, hstep⟩ | ⟨f, -, hstep⟩ := stepWith_cases (Config.randomByte s.draws) hrun
  · exact ⟨t, hstep⟩
  · exact ⟨s.takeFault f, hstep⟩

/-- What a step that answers `t` has done. -/
theorem step_cases {s t : State} (hrun : s.run = .running) (hstep : step s = .next t) :
    (∃ w, s.fetch = .ok w ∧ Completes s.advance (decode w) t) ∨ ∃ f, StepFaults s f ∧ t = s.takeFault f := by
  rw [step_eq_stepWith] at hstep
  obtain ⟨w, u, hfetch, hu, heq⟩ | ⟨f, hf, heq⟩ := stepWith_cases (Config.randomByte s.draws) hrun
  · rw [heq] at hstep
    cases hstep
    exact .inl ⟨w, hfetch, hu⟩
  · rw [heq] at hstep
    cases hstep
    exact .inr ⟨f, hf, rfl⟩

/-- Settles O44: completing leaves the machine running, so the step has taken a fault. -/
theorem faultingStepCommitsNothing : Obligations.FaultingStepCommitsNothing := by
  intro s t f hrun hstep ht
  obtain ⟨w, -, h⟩ | ⟨g, -, rfl⟩ := step_cases hrun hstep
  · rw [h.run_eq, State.advance_run, hrun] at ht
    cases ht
  · cases ht
    rfl

/-- Settles O48: the advance of the fetch is all that moves `PC`. -/
theorem sequentialStepsAdvanceByTwo : Obligations.SequentialStepsAdvanceByTwo := by
  intro s t w hrun hfetch hseq hstep ht
  obtain ⟨w', hfetch', h⟩ | ⟨f, -, rfl⟩ := step_cases hrun hstep
  · rw [hfetch] at hfetch'
    cases hfetch'
    rw [h.pc_eq hseq, State.advance_pc]
    rfl
  · cases ht

/-- R110 and R118, for what executes the word: it is committed where it leaves the machine running, and its fault is taken
where it leaves one. -/
theorem runSequence_of_execute {execute : Instr → State → Host.Outcome State Fault Refusal} {s t : State} {w : Word}
    (hrun : s.run = .running) (hfetch : s.fetch = .ok w)
    (hexec : execute (decode w) { s with pc := s.pc + 2 } = .next t) :
    (t.run = .running → runSequence execute s = .next t) ∧
      ∀ f, t.run = .faulted f → runSequence execute s = .next { s with run := .faulted f } := by
  have hseq : runSequence execute s = s.commit (.next t) := by rw [runSequence_runs hrun hfetch, ← hexec]; rfl
  refine ⟨fun ht => ?_, fun f ht => ?_⟩
  · rw [hseq, State.commit_next, State.afterExec_running ht]
  · rw [hseq, State.commit_next, State.afterExec_faulted ht]
    rfl

/-- Settles O40: the two bytes are the word that the fetch gives. -/
theorem stepRunsTheDecodedInstruction : Obligations.StepRunsTheDecodedInstruction := by
  intro s t hi lo i hrun hhi hlo hdecode hexec
  have hfetch : s.fetch = .ok (bytesWord hi lo) := by rw [State.fetch, Memory.fetch16, hhi, hlo]
  cases hdecode
  exact runSequence_of_execute hrun hfetch hexec

/-- Settles O41: the fetch reports the larger of `PC` and 0x1000. -/
theorem fetchPastTheEndFaults : Obligations.FetchPastTheEndFaults := by
  intro s hrun
  have hstep {a : Nat} (hpc : 0xFFF ≤ s.pc.toNat) (ha : max s.pc.toNat 0x1000 = a) :
      step s = .next (s.takeFault (.memoryOutOfBounds a)) :=
    runSequence_fetch_fault hrun (ha ▸ State.fetch_error (by omega))
  exact ⟨fun hpc => ⟨_, hstep (by omega) (by omega), faultedOnly_takeFault s _⟩,
    fun hpc => ⟨_, hstep (by omega) (by omega), faultedOnly_takeFault s _⟩⟩

/-- The host's answer to an outcome that is a running next state, or a fault taken. -/
theorem ranAndReplied_answered {s t : State} {o : Host.Outcome State Fault Refusal} (ho : o = .next t)
    (ht : t.run = .running ∨ ∃ f, t = s.takeFault f) : ranAndReplied s o (s.answered o) := by
  subst ho
  refine ⟨t, rfl, ?_⟩
  obtain hrunning | ⟨f, rfl⟩ := ht
  · exact .inl ⟨hrunning, by simp [State.answered, State.status, hrunning]⟩
  · exact .inr ⟨f, rfl, rfl⟩

theorem executeWith_running {s : State} (hrun : s.run = .running) (r : Byte) (i : Instr) :
    executeWith r i s = execWith r i s := by
  simp [executeWith, hrun]

theorem executeWith_faulted {s : State} {f : Fault} (hrun : s.run = .faulted f) (r : Byte) (i : Instr) :
    executeWith r i s = .fault f := by
  simp [executeWith, hrun]

/-- Settles O57: an execution and a step each complete, running, or take one fault. -/
theorem hostExecuteAppliesTheOperation : Obligations.HostExecuteAppliesTheOperation := by
  intro r s hrun
  refine ⟨fun i => ?_, ?_, fun w t hfetch hexec => runSequence_of_execute hrun hfetch hexec⟩
  · rw [HostOp.apply, executeWith_running hrun]
    obtain ⟨t, ht, hexec⟩ | ⟨f, -, hexec⟩ := execWith_completesOrFaults r i s
    · exact ranAndReplied_answered hexec (.inl (ht.run_eq.trans hrun))
    · exact ranAndReplied_answered hexec (.inr ⟨f, rfl⟩)
  · obtain ⟨w, t, -, ht, hstep⟩ | ⟨f, -, hstep⟩ := stepWith_cases r hrun
    · exact ranAndReplied_answered hstep (.inl (ht.run_eq.trans hrun))
    · exact ranAndReplied_answered hstep (.inr ⟨f, rfl⟩)

/-- R125: a step that fetches no Random does not read the draw. -/
theorem stepWith_eq_step {s : State} {w : Word} (hfetch : s.fetch = .ok w) (hw : ∀ x kk, decode w ≠ .random x kk)
    (r : Byte) : stepWith r s = step s := by
  cases hrun : s.run with
  | running => rw [stepWith, step, runSequence_runs hrun hfetch, runSequence_runs hrun hfetch, execWith_eq_exec hw]
  | faulted f => rw [stepWith, step, runSequence_faulted hrun, runSequence_faulted hrun]

/-- Settles O58: Random alone has an arm of its own in `execWith`. -/
theorem onlyRandomReadsTheDraw : Obligations.OnlyRandomReadsTheDraw := by
  intro s
  refine ⟨step_eq_stepWith s, fun w r hfetch hw => stepWith_eq_step hfetch hw r, fun i r hi => ?_⟩
  refine ⟨execWith_eq_exec hi r s, fun r' => ?_⟩
  simp only [HostOp.apply, executeWith, execWith_eq_exec hi]

/-- R121: `load` writes an image that fits from 0x200 up, and answers a host error to one that does not. -/
theorem load_apply_cases (b : List Byte) (s : State) :
    (b.length ≤ 0xE00 ∧
      ∃ m, s.mem.writeBytes 0x200 b = .ok m ∧ (HostOp.load b).apply s = (s.setMem m, .done)) ∨
    (0xE00 < b.length ∧ (HostOp.load b).apply s = (s, .hostError (.memoryOutOfBounds 0x1000))) := by
  by_cases hlen : b.length ≤ 0xE00
  · have himage : imageWellFormed b = true := decide_eq_true hlen
    obtain ⟨m, hwrite⟩ | ⟨past, -⟩ := s.mem.writeBytes_cases 0x200 b
    · exact .inl ⟨hlen, m, hwrite, by simp [HostOp.apply, State.load, himage, Config.loadBase, hwrite, Except.map]⟩
    · omega
  · have himage : imageWellFormed b = false := decide_eq_false hlen
    exact .inr ⟨Nat.lt_of_not_le hlen, by simp [HostOp.apply, State.load, himage, Config.memSize]⟩

/-- R126: a tick writes the timer alone. -/
theorem State.tickDT_eq_setDt (s : State) : s.tickDT = s.setDt (if s.dt = 0#8 then 0#8 else s.dt - 1#8) := by
  unfold State.tickDT
  split_ifs with hzero
  · rw [← hzero]
    rfl
  · rfl

/-- Settles O45: a faulted machine's step and execution answer its fault, and only reset writes the run state. -/
theorem faultedIsAbsorbing : Obligations.FaultedIsAbsorbing := by
  intro s f hrun
  have hstep (r : Byte) : (HostOp.step r).apply s = (s, .faulted f) := by
    rw [HostOp.apply, stepWith, runSequence_faulted hrun, State.answered]
  have hexecute (i : Instr) (r : Byte) : (HostOp.execute i r).apply s = (s, .faulted f) := by
    rw [HostOp.apply, executeWith_faulted hrun, State.answered]
  refine ⟨runSequence_faulted hrun, hstep, hexecute, fun op hop => ?_, rfl⟩
  cases op with
  | reset => exact absurd rfl hop
  | load b =>
    obtain ⟨-, m, -, happly⟩ | ⟨-, happly⟩ := load_apply_cases b s
    · rw [happly]
      exact hrun
    · rw [happly]
      exact hrun
  | setPC a => exact hrun
  | step r => rw [hstep, hrun]
  | execute i r => rw [hexecute, hrun]
  | snapshot => exact hrun
  | tickDT =>
    rw [HostOp.apply, State.tickDT_eq_setDt]
    exact hrun
  | inspect => exact hrun

end Sys2Proof.Machine
end

section
/-! The invariant (spec/10_state.md R25, spec/20_memory.md R50, spec/60_exceptions.md R271 to R273): kept by completing and by
taking a fault, so by every step and every host operation; obligations O50, O51 and O59. -/

namespace Sys2Proof.Machine

open Sys2Proof.Safety

theorem recordedFaultOk_of_running {s : State} (hrun : s.run = .running) : recordedFaultOk s := by
  simp [recordedFaultOk, hrun]

/-- R50 and R53: only a store writes memory, and its writes keep the canonical form. -/
theorem Completes.mem_wf {s t : State} {i : Instr} (h : Completes s i t) (hs : s.mem.wf) : t.mem.wf := by
  cases h with
  | store bs m hi hf hm => exact Memory.writeBytes_wf hs hm
  | _ => exact hs

/-- R25: Call pushes one entry where there is room, Return takes one off, and nothing else touches the stack. -/
theorem Completes.stackFits {s t : State} {i : Instr} (h : Completes s i t) (hs : stackFits s) : stackFits t := by
  cases h with
  | call nnn room =>
    intro d hd
    have hle : s.stack.length ≤ d := hs d hd
    have hne : s.stack.length ≠ d := fun heq => room (heq ▸ hd)
    have hlen : (s.stack ++ [s.pc]).length = s.stack.length + 1 := List.length_append
    exact hlen ▸ Nat.lt_of_le_of_ne hle hne
  | ret st a top =>
    intro d hd
    have hle : s.stack.length ≤ d := hs d hd
    rw [top, List.length_append] at hle
    exact Nat.le_of_add_right_le hle
  | _ => exact hs

theorem Completes.inv {s t : State} {i : Instr} (h : Completes s i t) (hrun : s.run = .running) (hs : Inv s) : Inv t := by
  obtain ⟨hmem, hstack, -⟩ := hs
  exact ⟨h.mem_wf hmem, h.stackFits hstack, recordedFaultOk_of_running (h.run_eq.trans hrun)⟩

/-- R271 to R273: the fault that an instruction takes is a possible one. -/
theorem Faults.recordedFaultOk {s : State} {i : Instr} {f : Fault} (h : Faults s i f) : recordedFaultOk (s.takeFault f) := by
  cases h with
  | access hi =>
    have hbase : s.base < 2 ^ 16 := s.i.isLt
    show 0x1000 ≤ max s.base 0x1000 ∧ max s.base 0x1000 ≤ 0xFFFF
    omega
  | underflow empty => exact empty
  | overflow nnn full => exact full

/-- R112 and R118: the fault of a step is a possible one; the advance of `PC` has no part in that. -/
theorem StepFaults.recordedFaultOk {s : State} {f : Fault} (h : StepFaults s f) : recordedFaultOk (s.takeFault f) := by
  cases h with
  | fetch hfetch =>
    have hpc : s.pc.toNat < 2 ^ 16 := s.pc.isLt
    show 0x1000 ≤ max s.pc.toNat 0x1000 ∧ max s.pc.toNat 0x1000 ≤ 0xFFFF
    omega
  | execute hfetch hf => exact hf.recordedFaultOk

theorem inv_takeFault {s : State} {f : Fault} (hs : Inv s) (hf : recordedFaultOk (s.takeFault f)) : Inv (s.takeFault f) :=
  ⟨hs.1, hs.2.1, hf⟩

/-- The advance of the fetch is no part of the invariant. -/
theorem inv_advance {s : State} (hs : Inv s) : Inv s.advance := hs

/-- Settles O50: a step answers next only from a running state, and then completes or takes a possible fault. -/
theorem stepKeepsInv : Obligations.StepKeepsInv := by
  intro s t hs hstep
  cases hrun : s.run with
  | running =>
    obtain ⟨w, -, h⟩ | ⟨f, hf, rfl⟩ := step_cases hrun hstep
    · exact h.inv hrun (inv_advance hs)
    · exact inv_takeFault hs hf.recordedFaultOk
  | faulted f =>
    rw [step, runSequence_faulted hrun] at hstep
    cases hstep

/-- R300: a state with nothing in memory and nothing on the stack that runs, whatever its stack limit and count of draws. -/
theorem inv_hostReset (s : State) : Inv s.hostReset :=
  ⟨Memory.nil_wf, fun _ _ => Nat.zero_le _, trivial⟩

/-- Settles O51: the reset state is the host's reset of itself. -/
theorem resetMeetsInv : Obligations.ResetMeetsInv := inv_hostReset State.reset

/-- R119: the step and the execution of a faulted machine leave it as it is. -/
theorem inv_answered_stepWith {s : State} (hs : Inv s) (r : Byte) : Inv (s.answered (stepWith r s)).1 := by
  cases hrun : s.run with
  | running =>
    obtain ⟨w, t, -, ht, hstep⟩ | ⟨f, hf, hstep⟩ := stepWith_cases r hrun
    · rw [hstep]
      exact ht.inv hrun (inv_advance hs)
    · rw [hstep]
      exact inv_takeFault hs hf.recordedFaultOk
  | faulted f =>
    rw [stepWith, runSequence_faulted hrun]
    exact hs

theorem inv_answered_executeWith {s : State} (hs : Inv s) (r : Byte) (i : Instr) :
    Inv (s.answered (executeWith r i s)).1 := by
  cases hrun : s.run with
  | running =>
    rw [executeWith_running hrun]
    obtain ⟨t, ht, hexec⟩ | ⟨f, hf, hexec⟩ := execWith_completesOrFaults r i s
    · rw [hexec]
      exact ht.inv hrun hs
    · rw [hexec]
      exact inv_takeFault hs hf.recordedFaultOk
  | faulted f =>
    rw [executeWith_faulted hrun]
    exact hs

/-- Settles O59: reset, step and execute as above, a load by the writes of its bytes, and the others do not touch what the
invariant speaks of. -/
theorem hostOperationsKeepInv : Obligations.HostOperationsKeepInv := by
  intro op s hs
  cases op with
  | reset => exact inv_hostReset s
  | load b =>
    obtain ⟨-, m, hwrite, happly⟩ | ⟨-, happly⟩ := load_apply_cases b s
    · rw [happly]
      exact ⟨Memory.writeBytes_wf hs.1 hwrite, hs.2⟩
    · rw [happly]
      exact hs
  | setPC a => exact hs
  | step r => exact inv_answered_stepWith hs r
  | execute i r => exact inv_answered_executeWith hs r i
  | snapshot => exact hs
  | tickDT =>
    rw [HostOp.apply, State.tickDT_eq_setDt]
    exact hs
  | inspect => exact hs

end Sys2Proof.Machine
end

section
/-! The delay timer (spec/10_state.md R27): each operation, and from them the step, commutes with the setting of the timer; then
obligation O49. -/

namespace Sys2Proof.Machine

theorem State.skipIf_setDt (s : State) (b : Byte) (p : Bool) : (s.setDt b).skipIf p = (s.skipIf p).setDt b := by
  cases p <;> rfl

theorem State.popPc_setDt (s : State) (b : Byte) : (s.setDt b).popPc = s.popPc.map (·.setDt b) := by
  unfold State.popPc
  rw [State.setDt_stack]
  cases s.stack.getLast? <;> rfl

theorem State.push_setDt (s : State) (b : Byte) (a : Addr) : (s.setDt b).push a = (s.push a).map (·.setDt b) := by
  have hfull : (s.setDt b).stackFull = s.stackFull := rfl
  unfold State.push
  rw [hfull]
  split <;> rfl

/-- An instruction that may fault commutes with the setting of the timer where what it computes does. -/
theorem exec_setDt_of_attempt {i : Instr} {s : State} {b : Byte} {q r : Except Fault State}
    (hs : exec i s = s.attempt r) (hb : exec i (s.setDt b) = (s.setDt b).attempt q) (h : q = r.map (·.setDt b)) :
    ∃ t, exec i s = .next t ∧ exec i (s.setDt b) = .next (t.setDt b) := by
  subst h
  refine ⟨s.settle r, hs, ?_⟩
  rw [hb]
  cases r <;> rfl

/-- An update that commutes with the setting of the timer still does after a computation that may fault. -/
theorem map_setDt {α : Type} (r : Except Fault α) {f g : α → State} {b : Byte} (h : ∀ a, g a = (f a).setDt b) :
    r.map g = (r.map f).map (·.setDt b) := by
  cases r with
  | ok a => exact congrArg Except.ok (h a)
  | error e => rfl

/-- R27: no instruction reads or writes the delay timer. -/
theorem exec_setDt (i : Instr) (s : State) (b : Byte) :
    ∃ t, exec i s = .next t ∧ exec i (s.setDt b) = .next (t.setDt b) := by
  cases i with
  | skipEqImm x kk => exact ⟨_, rfl, congrArg _ (s.skipIf_setDt b _)⟩
  | skipNeImm x kk => exact ⟨_, rfl, congrArg _ (s.skipIf_setDt b _)⟩
  | skipEqReg x y => exact ⟨_, rfl, congrArg _ (s.skipIf_setDt b _)⟩
  | skipNeReg x y => exact ⟨_, rfl, congrArg _ (s.skipIf_setDt b _)⟩
  | ret => exact exec_setDt_of_attempt rfl rfl (s.popPc_setDt b)
  | call nnn =>
    refine exec_setDt_of_attempt rfl rfl ?_
    rw [State.push_setDt, State.setDt_pc]
    cases s.push s.pc <;> rfl
  | draw x y n => exact exec_setDt_of_attempt rfl rfl (map_setDt _ fun _ => rfl)
  | storeBCD x => exact exec_setDt_of_attempt rfl rfl (map_setDt _ fun _ => rfl)
  | storeRegs x => exact exec_setDt_of_attempt rfl rfl (map_setDt _ fun _ => rfl)
  | loadRegs x => exact exec_setDt_of_attempt rfl rfl (map_setDt _ fun _ => rfl)
  | _ => exact ⟨_, rfl, rfl⟩

theorem State.afterExec_setDt (s t : State) (b : Byte) : (s.setDt b).afterExec (t.setDt b) = (s.afterExec t).setDt b := by
  cases ht : t.run with
  | running => rw [State.afterExec_running ht, State.afterExec_running (t := t.setDt b) ht]
  | faulted f =>
    rw [State.afterExec_faulted ht, State.afterExec_faulted (t := t.setDt b) ht]
    rfl

theorem step_setDt {s t : State} (b : Byte) (hstep : step s = .next t) : step (s.setDt b) = .next (t.setDt b) := by
  cases hrun : s.run with
  | running =>
    obtain ⟨w, hfetch⟩ | hfetch := s.fetch_cases
    · obtain ⟨u, hexec, hexecb⟩ := exec_setDt (decode w) s.advance b
      rw [step, runSequence_runs hrun hfetch, hexec, State.commit_next] at hstep
      cases hstep
      rw [step, runSequence_runs (s := s.setDt b) hrun hfetch, ← State.afterExec_setDt, ← State.commit_next, ← hexecb]
      rfl
    · rw [step, runSequence_fetch_fault hrun hfetch] at hstep
      cases hstep
      exact runSequence_fetch_fault (s := s.setDt b) hrun hfetch
  | faulted f =>
    rw [step, runSequence_faulted hrun] at hstep
    cases hstep

/-- Settles O49: the setting of the timer passes through the step. -/
theorem stepIgnoresTheDelayTimer : Obligations.StepIgnoresTheDelayTimer := fun _ _ b hstep => step_setDt b hstep

end Sys2Proof.Machine
end

section
/-! Memory (spec/20_memory.md): canonical memories as sets of entries, the fetch as a number, then obligations O7 and O8. -/

namespace Sys2Proof.Machine

/-- R50: the entries of a canonical memory are the addresses that do not read as their reset contents. -/
theorem Memory.mem_iff_peek {m : Memory} (hm : m.wf) (a : Nat) (b : Byte) :
    (a, b) ∈ m ↔ a < 0x1000 ∧ m.peek a = b ∧ b ≠ resetByte a := by
  constructor
  · intro h
    obtain ⟨hlt, hne⟩ := hm.2 _ h
    exact ⟨hlt, peek_of_mem hm.1 h, hne⟩
  · rintro ⟨-, rfl, hne⟩
    exact mem_of_peek hne

/-- R52: memories that answer every read alike hold the same bytes. -/
theorem Memory.peek_congr {m m' : Memory} (h : ∀ a, m.readByte a = m'.readByte a) {a : Nat} (ha : a < 0x1000) :
    m.peek a = m'.peek a := by
  simpa only [readByte_ok ha, Except.ok.injEq] using h a

/-- Settles O7: the two lists have the same entries, and there is one rising order of them. -/
theorem canonicalMemoriesReadingAlikeAreEqual : Obligations.CanonicalMemoriesReadingAlikeAreEqual := by
  intro m m' hm hm' hread
  have hmem (e : Host.Cell) : e ∈ m ↔ e ∈ m' := by
    obtain ⟨a, b⟩ := e
    rw [Memory.mem_iff_peek hm, Memory.mem_iff_peek hm']
    exact and_congr_right fun ha => by rw [Memory.peek_congr hread ha]
  have hperm : m.Perm m' :=
    (List.perm_ext_iff_of_nodup (hm.1.imp fun h heq => absurd (heq ▸ h) (Nat.lt_irrefl _))
      (hm'.1.imp fun h heq => absurd (heq ▸ h) (Nat.lt_irrefl _))).2 hmem
  exact hperm.eq_of_pairwise (fun _ _ _ _ h h' => absurd h (Nat.lt_asymm h')) hm.1 hm'.1

/-- R60: the byte at the lower address is the high byte. -/
theorem bytesWord_toNat (hi lo : Byte) : (bytesWord hi lo).toNat = 256 * hi.toNat + lo.toNat := by
  rw [bytesWord, BitVec.toNat_append, ← Nat.shiftLeft_add_eq_or_of_lt lo.isLt, Nat.shiftLeft_eq, Nat.mul_comm]

/-- Settles O8: a fetch reads its two bytes in order, and reports the larger of its address and 0x1000. -/
theorem fetchIsBigEndian : Obligations.FetchIsBigEndian := by
  intro m a
  have herror {f : Nat} (ha : 0xFFF ≤ a) (hf : max a 0x1000 = f) : m.fetch16 a = .error (.memoryOutOfBounds f) :=
    hf ▸ Memory.fetch16_error m a (by omega)
  refine ⟨fun hi lo hhi hlo => ?_, fun ha => herror (by omega) (by omega), fun ha => herror (by omega) (by omega)⟩
  exact ⟨bytesWord hi lo, by rw [Memory.fetch16, hhi, hlo], bytesWord_toNat hi lo⟩

end Sys2Proof.Machine
end

section
/-! Stores and loads through `I` (spec/44_index_memory.md R242 to R244): what each completes in where all its bytes exist, the
fault where one does not, then obligations O9, O35, O36, O37 and O38. -/

namespace Sys2Proof.Machine

open Sys2Proof.Safety

/-- R52 from the bytes held: outside the bytes written every read, in or out of bounds, is as before. -/
theorem memUnchangedOutside_setMem {s : State} {m : Memory} {base n : Nat}
    (h : ∀ a, (a < base ∨ base + n ≤ a) → m.peek a = s.mem.peek a) : memUnchangedOutside base n s (s.setMem m) := by
  intro a ha
  rw [State.setMem_mem, Memory.readByte, Memory.readByte, h a ha]

/-- R242 and R243: a store through `I` whose bytes all exist. -/
theorem attempt_storeAtIndex_ok {s : State} {bs : List Byte} (hm : s.mem.wf) (h : s.base + bs.length ≤ 0x1000) :
    ∃ m, s.attempt (s.storeAtIndex bs) = .next (s.setMem m) ∧
      (∀ k (hk : k < bs.length), m.readByte (s.base + k) = .ok bs[k]) ∧
      memUnchangedOutside s.base bs.length s (s.setMem m) := by
  obtain ⟨m, hstore, -, hin, hout⟩ := State.storeAtIndex_ok s bs hm (.inr h)
  refine ⟨m, by rw [hstore, State.attempt_eq, State.settle_ok], fun k hk => ?_, memUnchangedOutside_setMem hout⟩
  have hexists : s.base + k < 0x1000 := by omega
  rw [Memory.readByte_ok hexists]
  exact congrArg Except.ok (hin k hk)

/-- R118 and R276: a store through `I` that runs past the end. -/
theorem attempt_storeAtIndex_error {s : State} {bs : List Byte} (hn : bs ≠ []) (h : 0x1000 < s.base + bs.length) :
    s.attempt (s.storeAtIndex bs) = .next (s.takeFault (.memoryOutOfBounds (max s.base 0x1000))) := by
  rw [State.storeAtIndex_error s bs hn h, State.attempt_eq, State.settle_error]
  rfl

theorem State.regsUpTo_ne_nil (s : State) (x : Reg) : s.regsUpTo x ≠ [] :=
  List.ne_nil_of_length_eq_add_one (s.regsUpTo_length x)

/-- R243: StoreRegs with its whole range in memory. -/
theorem exec_storeRegs_ok {x : Reg} {s : State} (hm : s.mem.wf) (h : s.base + x.val ≤ 0xFFF) :
    ∃ m, exec (.storeRegs x) s = .next (s.setMem m) ∧
      (∀ k : Reg, k ≤ x → m.readByte (s.base + k.val) = .ok (s.reg k)) ∧
      memUnchangedOutside s.base (x.val + 1) s (s.setMem m) := by
  have hlen : (s.regsUpTo x).length = x.val + 1 := s.regsUpTo_length x
  obtain ⟨m, hstore, hin, hout⟩ := attempt_storeAtIndex_ok (bs := s.regsUpTo x) hm (by omega)
  refine ⟨m, hstore, fun k hk => ?_, hlen ▸ hout⟩
  obtain ⟨hlt, hget⟩ := List.getElem?_eq_some_iff.1 (s.regsUpTo_getElem? x k hk)
  rw [hin k.val hlt, hget]

/-- Settles O36: the bytes stored are the registers up to `x`, all read before the first write. -/
theorem storeRegsStoresTheRange : Obligations.StoreRegsStoresTheRange := by
  intro x s hm h
  obtain ⟨m, hexec, hin, hout⟩ := exec_storeRegs_ok hm h
  exact ⟨s.setMem m, hexec, hin, hout, onlyChanges_setMem s m⟩

/-- Settles O9: V0 and V1 are the first two bytes stored. -/
theorem storedRegistersAreFetched : Obligations.StoredRegistersAreFetched := by
  intro x s hm hx h
  obtain ⟨m, hexec, hin, -⟩ := exec_storeRegs_ok hm h
  have hhigh : m.readByte s.base = .ok (s.reg 0) := hin 0 (Fin.zero_le x)
  have hlow : m.readByte (s.base + 1) = .ok (s.reg 1) := hin 1 hx
  refine ⟨s.setMem m, bytesWord (s.reg 0) (s.reg 1), hexec, ?_, bytesWord_toNat _ _⟩
  rw [State.setMem_mem, Memory.fetch16, hhigh, hlow]

/-- Settles O35: the list stored is the three digits, each below 256. -/
theorem storeBCDStoresDigits : Obligations.StoreBCDStoresDigits := by
  intro x s hm h
  have hbyte : (s.reg x).toNat < 256 := (s.reg x).isLt
  obtain ⟨m, hstore, hin, hout⟩ := attempt_storeAtIndex_ok (bs := bcdDigits (s.reg x)) hm (by rw [bcdDigits_length]; omega)
  refine ⟨s.setMem m, _, _, _, hstore, hin 0 (by simp), hin 1 (by simp), hin 2 (by simp), ?_, ?_, ?_, hout,
    onlyChanges_setMem s m⟩
  · exact (BitVec.toNat_ofNat ..).trans (Nat.mod_eq_of_lt (by omega))
  · exact (BitVec.toNat_ofNat ..).trans (Nat.mod_eq_of_lt (by omega))
  · exact (BitVec.toNat_ofNat ..).trans (Nat.mod_eq_of_lt (by omega))

/-- R244: LoadRegs with its whole range in memory. -/
theorem exec_loadRegs_ok {x : Reg} {s : State} (h : s.base + x.val ≤ 0xFFF) :
    exec (.loadRegs x) s = .next (s.setRegs ((List.range (x.val + 1)).map fun k => s.mem.peek (s.base + k))) := by
  have hread := Memory.readBytes_ok s.mem s.base (x.val + 1) (.inr (by omega))
  show s.attempt _ = _
  rw [hread]
  rfl

/-- Settles O37: the list loaded has an entry for each register up to `x` and none above. -/
theorem loadRegsLoadsTheRange : Obligations.LoadRegsLoadsTheRange := by
  intro x s h
  refine ⟨_, exec_loadRegs_ok h, fun k hk => ?_, fun k hk => ?_, onlyChanges_setRegs s _⟩
  · have hlt : k.val < x.val + 1 := Nat.lt_succ_of_le hk
    have hexists : s.base + k.val < 0x1000 := by omega
    simp [Memory.readByte_ok hexists, hlt]
  · have hge : ¬ k.val < x.val + 1 := Nat.not_lt_of_le hk
    simp [hge]

/-- R276: a load of bytes that run past the end. -/
theorem exec_loadRegs_error {x : Reg} {s : State} (h : 0xFFF < s.base + x.val) :
    exec (.loadRegs x) s = .next (s.takeFault (.memoryOutOfBounds (max s.base 0x1000))) := by
  have hread := Memory.readBytes_error s.mem s.base (x.val + 1) (by omega) (by omega)
  show s.attempt _ = _
  rw [hread]
  rfl

/-- Settles O38: the bytes are more than none, and one of them is past the end. -/
theorem accessPastTheEndFaultsWhole : Obligations.AccessPastTheEndFaultsWhole := by
  intro x s
  have hfault := faultedOnly_takeFault s (.memoryOutOfBounds (max s.base 0x1000))
  refine ⟨fun h => ⟨_, attempt_storeAtIndex_error (List.cons_ne_nil _ _) ?_, hfault⟩,
    fun h => ⟨⟨_, attempt_storeAtIndex_error (s.regsUpTo_ne_nil x) ?_, hfault⟩, ⟨_, exec_loadRegs_error h, hfault⟩⟩⟩
  · rw [bcdDigits_length]
    omega
  · rw [State.regsUpTo_length]
    omega

end Sys2Proof.Machine
end

section
/-! Call and Return (spec/41_control_flow.md R146, R148, R272, R273): what each answers, the step whose execution takes a fault,
then obligations O15, O16, O17 and O18. -/

namespace Sys2Proof.Machine

open Sys2Proof.Safety

@[simp] theorem decode_call (nnn : BitVec 12) : decode (wordNNN 0x2 nnn) = .call nnn := by simp [decode]

theorem exec_call_room {s : State} (nnn : BitVec 12) (room : s.stackDepth ≠ some s.stack.length) :
    exec (.call nnn) s = .next ((s.setStack (s.stack ++ [s.pc])).setPc (zextNNN nnn)) := by
  rw [exec, execCall, State.push_room s.pc room]
  rfl

theorem exec_call_full {s : State} (nnn : BitVec 12) (full : s.stackDepth = some s.stack.length) :
    exec (.call nnn) s = .next (s.takeFault (.stackOverflow s.pc)) := by
  rw [exec, execCall, State.push_full s.pc full]
  rfl

theorem exec_ret_append {s : State} {st : List Addr} {a : Addr} (top : s.stack = st ++ [a]) :
    exec .ret s = .next ((s.setStack st).setPc a) := by
  rw [exec, execReturn, State.popPc_append top]
  rfl

theorem exec_ret_empty {s : State} (empty : s.stack = []) : exec .ret s = .next (s.takeFault .stackUnderflow) := by
  rw [exec, execReturn, State.popPc_empty empty]
  rfl

/-- R118: a step whose execution takes a fault takes it over the state before the fetch. -/
theorem step_of_exec_fault {s : State} {w : Word} {f : Fault} (hrun : s.run = .running) (hfetch : s.fetch = .ok w)
    (hexec : exec (decode w) s.advance = .next (s.advance.takeFault f)) : step s = .next (s.takeFault f) := by
  rw [step, runSequence_runs hrun hfetch, hexec, State.commit_next, State.afterExec_faulted (s.advance.takeFault_run f)]

/-- Settles O15: the push succeeds, and the jump follows it. -/
theorem callPushesReturnAddress : Obligations.CallPushesReturnAddress := by
  intro nnn s room
  exact ⟨_, exec_call_room nnn room, rfl, zextNNN_toNat nnn, onlyChanges_setStack_setPc s _ _⟩

/-- Settles O16: the push fails with the address pushed, which in a step is the advanced `PC`. -/
theorem callOnFullStackFaults : Obligations.CallOnFullStackFaults := by
  intro nnn s full
  refine ⟨⟨_, exec_call_full nnn full, faultedOnly_takeFault s _⟩, fun hrun hfetch => ?_⟩
  have hexec : exec (decode (wordNNN 0x2 nnn)) s.advance = .next (s.advance.takeFault (.stackOverflow (s.pc + 2))) := by
    rw [decode_call, exec_call_full (s := s.advance) nnn full]
    rfl
  exact ⟨_, step_of_exec_fault hrun hfetch hexec, faultedOnly_takeFault s _⟩

/-- Settles O17: the stack ends in an entry, or is empty. -/
theorem returnPopsOrUnderflows : Obligations.ReturnPopsOrUnderflows := by
  intro s
  refine ⟨decode_ret, fun st a top => ?_, fun empty => ?_⟩
  · exact ⟨_, exec_ret_append top, rfl, rfl, onlyChanges_setStack_setPc s st a, nextFetchFaults_everywhere _⟩
  · refine ⟨⟨_, exec_ret_empty empty, faultedOnly_takeFault s _⟩, fun hrun hfetch => ?_⟩
    have hexec : exec (decode 0x00EE) s.advance = .next (s.advance.takeFault .stackUnderflow) := by
      rw [decode_ret, exec_ret_empty (s := s.advance) empty]
    exact ⟨_, step_of_exec_fault hrun hfetch hexec, faultedOnly_takeFault s _⟩

/-- Settles O18: what Return takes off is the entry that Call pushed, the old `PC`. -/
theorem returnUndoesCall : Obligations.ReturnUndoesCall := by
  intro nnn s room
  have hret : exec .ret ((s.setStack (s.stack ++ [s.pc])).setPc (zextNNN nnn)) = .next s := exec_ret_append rfl
  have hne : ((s.setStack (s.stack ++ [s.pc])).setPc (zextNNN nnn)).stack ≠ [] := by simp
  exact ⟨_, s, exec_call_room nnn room, hne, hret, onlyChanges_refl [] s⟩

end Sys2Proof.Machine
end

section
/-! The ALU (spec/42_alu.md): a result with its flag, then obligations O20 to O25 and O34, each one write of the state. -/

namespace Sys2Proof.Safety

open Sys2Proof.Machine

theorem regsUnchangedBut_setResult (s : State) (x : Reg) (result flag : Byte) :
    regsUnchangedBut [x, vf] s (s.setResult x result flag) := by
  intro k hk
  simp only [List.mem_cons, List.not_mem_nil, or_false, not_or] at hk
  rw [State.reg_setResult, if_neg hk.2, if_neg hk.1]

theorem regsUnchangedBut_randomWith (r : Byte) (x : Reg) (kk : Byte) (s : State) :
    regsUnchangedBut [x] s (randomWith r x kk s) := by
  intro k hk
  rw [reg_randomWith, if_neg (List.ne_of_not_mem_cons hk)]

end Sys2Proof.Safety

namespace Sys2Proof.Machine

open Sys2Proof.Safety

/-- R171: where the destination is not VF, the result stays. -/
theorem State.reg_setResult_dest (s : State) {x : Reg} (hx : x ≠ vf) (result flag : Byte) :
    (s.setResult x result flag).reg x = result := by
  rw [State.reg_setResult, if_neg hx, if_pos rfl]

/-- R171: the flag is written last. -/
theorem State.reg_setResult_vf (s : State) (x : Reg) (result flag : Byte) :
    (s.setResult x result flag).reg vf = flag := by
  rw [State.reg_setResult, if_pos rfl]

@[simp] theorem decode_addImm (x : Reg) (kk : Byte) : decode (wordXKK 0x7 x kk) = .addImm x kk := by simp [decode]
@[simp] theorem decode_random (x : Reg) (kk : Byte) : decode (wordXKK 0xC x kk) = .random x kk := by simp [decode]
@[simp] theorem decode_addToIndex (x : Reg) : decode (wordXKK 0xF x 0x1E) = .addToIndex x := by
  simp [decode, decodeClassF]

/-- Settles O20: the sum of the bit vectors is the sum modulo 256. -/
theorem addImmWraps : Obligations.AddImmWraps := by
  intro x kk s
  refine ⟨decode_addImm x kk, s.setReg x (s.reg x + kk), rfl, ?_, regsUnchangedBut_setReg s x _, onlyChanges_setReg s x _⟩
  rw [State.reg_setReg_self, BitVec.toNat_add]

/-- Settles O21: the free draw and the draw handed in go through the same update. -/
theorem randomMasksTheDraw : Obligations.RandomMasksTheDraw := by
  intro x kk s
  have hbits (r : Byte) (j : Nat) (_ : j < 8) :
      ((randomWith r x kk s).reg x).getLsbD j = (r.getLsbD j && kk.getLsbD j) := by
    rw [reg_randomWith, if_pos rfl, BitVec.getLsbD_and]
  exact ⟨decode_random x kk,
    ⟨_, rfl, hbits _, rfl, regsUnchangedBut_randomWith _ x kk s, onlyChanges_randomWith _ x kk s⟩,
    fun r => ⟨_, rfl, hbits r, rfl, regsUnchangedBut_randomWith r x kk s, onlyChanges_randomWith r x kk s⟩⟩

/-- Settles O22: each is one write of the destination. -/
theorem copyAndLogicWriteDestination : Obligations.CopyAndLogicWriteDestination := by
  intro x y s
  refine ⟨⟨_, rfl, s.reg_setReg_self x _, regsUnchangedBut_setReg s x _, onlyChanges_setReg s x _⟩,
    ⟨_, rfl, fun j _ => ?_, regsUnchangedBut_setReg s x _, onlyChanges_setReg s x _⟩,
    ⟨_, rfl, fun j _ => ?_, regsUnchangedBut_setReg s x _, onlyChanges_setReg s x _⟩,
    ⟨_, rfl, fun j _ => ?_, regsUnchangedBut_setReg s x _, onlyChanges_setReg s x _⟩⟩
  · rw [State.reg_setReg_self, BitVec.getLsbD_or]
  · rw [State.reg_setReg_self, BitVec.getLsbD_and]
  · rw [State.reg_setReg_self, BitVec.getLsbD_xor]

/-- Settles O23: the result and the flag of the exact sum. -/
theorem addCarrySumAndCarry : Obligations.AddCarrySumAndCarry := by
  intro x y s
  refine ⟨_, rfl, fun hx => ?_, ?_, regsUnchangedBut_setResult s x _ _, onlyChanges_setResult s x _ _⟩
  · rw [State.reg_setResult_dest s hx, BitVec.toNat_add]
  · rw [State.reg_setResult_vf]
    exact carryFlag_eq _ _

theorem toNat_sub_byte (a b : Byte) : (a - b).toNat = (256 + a.toNat - b.toNat) % 256 := by
  have hb : b.toNat < 256 := b.isLt
  rw [BitVec.toNat_sub]
  omega

/-- Settles O24: one difference and one flag, with the operands in either order. -/
theorem subtractionsAndNotBorrow : Obligations.SubtractionsAndNotBorrow := by
  intro x y s
  refine ⟨⟨_, rfl, fun hx => ?_, ?_, regsUnchangedBut_setResult s x _ _, onlyChanges_setResult s x _ _⟩,
    ⟨_, rfl, fun hx => ?_, ?_, regsUnchangedBut_setResult s x _ _, onlyChanges_setResult s x _ _⟩⟩
  · rw [State.reg_setResult_dest s hx, toNat_sub_byte]
  · rw [State.reg_setResult_vf]
    exact notBorrowFlag_eq _ _
  · rw [State.reg_setResult_dest s hx, toNat_sub_byte]
  · rw [State.reg_setResult_vf]
    exact notBorrowFlag_eq _ _

/-- Settles O25: the shift halves or doubles the source, and its flag is the bit that falls out. -/
theorem shiftsOfSourceRegister : Obligations.ShiftsOfSourceRegister := by
  intro x y s
  refine ⟨⟨_, rfl, fun hx => ?_, ?_, regsUnchangedBut_setResult s x _ _, onlyChanges_setResult s x _ _⟩,
    ⟨_, rfl, fun hx => ?_, ?_, regsUnchangedBut_setResult s x _ _, onlyChanges_setResult s x _ _⟩⟩
  · rw [State.reg_setResult_dest s hx, BitVec.toNat_ushiftRight, Nat.shiftRight_one]
  · rw [State.reg_setResult_vf, shiftOutLow_toNat]
  · rw [State.reg_setResult_dest s hx, BitVec.toNat_shiftLeft, Nat.shiftLeft_eq, Nat.mul_comm]
  · rw [State.reg_setResult_vf, shiftOutHigh_toNat]

/-- Settles O34: the sum of the bit vectors is the sum modulo 65536. -/
theorem addToIndexWraps : Obligations.AddToIndexWraps := by
  intro x s
  refine ⟨decode_addToIndex x, s.setIndex (s.i + zextByte (s.reg x)), rfl, ?_, onlyChanges_setIndex s _⟩
  rw [State.setIndex_i, BitVec.toNat_add, zextByte_toNat]

end Sys2Proof.Machine
end

section
/-! Reset and the host interface (spec/70_reset_and_hazards.md, spec/40_sequencer.md section 3): obligations O52, O53, O54, O56
and O60. -/

namespace Sys2Proof.Machine

open Sys2Proof.Safety

/-- R34 and R55: outside the glyph table memory is 0x00 after reset. -/
theorem resetByte_outside_glyphs {a : Nat} (h : a < 0x050 ∨ 0x0A0 ≤ a) : resetByte a = 0 := by
  rw [resetByte, if_neg]
  · rfl
  · unfold fontBase
    omega

/-- Settles O52: nothing is listed in memory, so every byte is its reset contents. -/
theorem resetStateOfTheSpec : Obligations.ResetStateOfTheSpec := by
  refine ⟨rfl, Display.pixel_blank, ?_, fun a ha hout => ?_, fun k => ?_, rfl, rfl, rfl, rfl⟩
  · rw [Memory.readBytes_ok _ _ _ (by omega)]
    rfl
  · rw [Memory.readByte_ok (by omega)]
    exact congrArg Except.ok (resetByte_outside_glyphs hout)
  · simp [State.reg, State.reset]

/-- Settles O53: the host's reset is the reset state with two fields kept. -/
theorem hostResetEstablishesReset : Obligations.HostResetEstablishesReset := fun _ => ⟨rfl, rfl, rfl, rfl⟩

/-- Settles O54: an image that fits is written from 0x200 up, as a store is. -/
theorem hostLoadCopiesTheImage : Obligations.HostLoadCopiesTheImage := by
  intro b s hm
  obtain ⟨hlen, m, hwrite, happly⟩ | ⟨hlen, happly⟩ := load_apply_cases b s
  · refine ⟨fun _ => ?_, fun h => absurd hlen (Nat.not_le_of_lt h)⟩
    obtain ⟨m', hwrite', -, hin, hout⟩ := Memory.writeBytes_ok s.mem 0x200 b hm (by omega)
    rw [hwrite] at hwrite'
    cases hwrite'
    rw [happly]
    refine ⟨rfl, fun j hj => ?_, memUnchangedOutside_setMem hout, onlyChanges_setMem s m⟩
    have hexists : 0x200 + j < 0x1000 := by omega
    exact (Memory.readByte_ok hexists).trans (congrArg Except.ok (hin j hj))
  · exact ⟨fun h => absurd hlen (Nat.not_lt_of_le h), fun _ => happly⟩

/-- Settles O56: one write of `PC`, and one of the timer. -/
theorem hostSetPcAndTick : Obligations.HostSetPcAndTick := by
  intro s a
  refine ⟨⟨rfl, onlyChanges_setPc s a⟩, ?_⟩
  rw [HostOp.apply, State.tickDT_eq_setDt]
  refine ⟨?_, onlyChanges_setDt s _⟩
  rw [State.setDt_dt]
  split_ifs with hzero
  · rw [hzero]
    rfl
  · bv_omega

/-- Settles O60: the two lists are the registers, and memory read address by address. -/
theorem inspectReturnsTheState : Obligations.InspectReturnsTheState := by
  intro s
  refine ⟨s.v.toList, (List.range Config.memSize).map s.mem.peek, rfl, by simp, fun k => by simp [State.reg],
    by simp [Config.memSize], fun a b ha => ?_⟩
  have hexists : a < 0x1000 := by omega
  simp [Config.memSize, hexists, Memory.readByte_ok hexists]

end Sys2Proof.Machine
end

section
/-! The blit (spec/43_display.md R210, R212) as the toggle of a list of cells, no two alike, and Draw (R214, R215); then
obligations O29, O30, O32 and O31. -/

namespace Sys2Proof.Machine

open Sys2Proof.Safety

/-- A cell of the display: column and row. -/
abbrev Pixel := Fin 64 × Fin 32

/-- A toggle of one cell, which records a collision where the cell was true (R210). -/
def toggleCell (acc : Display × Bool) (p : Pixel) : Display × Bool :=
  (acc.1.toggle p.1 p.2, acc.2 || acc.1.pixel p.1 p.2)

/-- The cells that the 1 bits of sprite row `r` fall on, from the left (R210). -/
def rowCells (cx cy row : Byte) (r : Nat) : List Pixel :=
  ((List.range 8).filter fun col => row.getLsbD (7 - col)).map fun col => (targetCol cx col, targetRow cy r)

/-- The cells that the 1 bits of the sprite rows from number `r` down fall on (R210). -/
def spriteCells (cx cy : Byte) : Nat → List Byte → List Pixel
  | _, [] => []
  | r, row :: rows => rowCells cx cy row r ++ spriteCells cx cy (r + 1) rows

/-- A row of the blit toggles its cells. -/
theorem blitRow_eq_foldl (cx cy row : Byte) (r : Nat) (acc : Display × Bool) :
    blitRow cx cy row r acc = (rowCells cx cy row r).foldl toggleCell acc := by
  rw [rowCells, List.foldl_map, List.foldl_filter]
  rfl

/-- The blit toggles the cells of the sprite, row after row. -/
theorem blitRows_eq_foldl (cx cy : Byte) (r : Nat) (rows : List Byte) (acc : Display × Bool) :
    blitRows cx cy r rows acc = (spriteCells cx cy r rows).foldl toggleCell acc := by
  induction rows generalizing r acc with
  | nil => rfl
  | cons row rows ih => rw [blitRows, spriteCells, List.foldl_append, ← blitRow_eq_foldl, ih]

theorem mem_rowCells {cx cy row : Byte} {r : Nat} {p : Pixel} :
    p ∈ rowCells cx cy row r ↔ ∃ col < 8, row.getLsbD (7 - col) = true ∧ p = (targetCol cx col, targetRow cy r) := by
  simp only [rowCells, List.mem_map, List.mem_filter, List.mem_range, and_assoc, eq_comm (b := p)]

theorem mem_spriteCells {cx cy : Byte} {r : Nat} {rows : List Byte} {p : Pixel} :
    p ∈ spriteCells cx cy r rows ↔ ∃ k, ∃ h : k < rows.length, p ∈ rowCells cx cy rows[k] (r + k) := by
  induction rows generalizing r with
  | nil => simp [spriteCells]
  | cons row rows ih =>
    have hnext (k : Nat) : r + (k + 1) = r + 1 + k := by omega
    rw [spriteCells, List.mem_append, ih]
    constructor
    · rintro (hrow | ⟨k, hk, hrows⟩)
      · exact ⟨0, Nat.zero_lt_succ _, hrow⟩
      · exact ⟨k + 1, Nat.succ_lt_succ hk, hnext k ▸ hrows⟩
    · rintro ⟨k, hk, h⟩
      cases k with
      | zero => exact .inl h
      | succ k => exact .inr ⟨k, Nat.lt_of_succ_lt_succ hk, hnext k ▸ h⟩

/-- The cells of the list are those that the spec's rule names (R210). -/
theorem spriteCovers_iff_mem {cx cy : Byte} {rows : List Byte} {c : Fin 64} {r : Fin 32} :
    spriteCovers cx cy rows c r ↔ (c, r) ∈ spriteCells cx cy 0 rows := by
  simp only [spriteCovers, mem_spriteCells, mem_rowCells, Prod.mk.injEq, Fin.ext_iff, targetCol, targetRow, Fin.val_ofNat,
    Nat.zero_add]
  constructor
  · rintro ⟨row, col, hrow, hcol⟩
    exact ⟨row, hrow, col, hcol⟩
  · rintro ⟨row, hrow, col, hcol⟩
    exact ⟨row, col, hrow, hcol⟩

/-- R212: the columns of a row fall on different cells. -/
theorem rowCells_nodup (cx cy row : Byte) (r : Nat) : (rowCells cx cy row r).Nodup := by
  refine List.Nodup.map_on (fun a ha b hb hab => ?_) (List.nodup_range.filter _)
  simp only [List.mem_filter, List.mem_range] at ha hb
  exact targetCol_injective ha.1 hb.1 (congrArg Prod.fst hab)

/-- R212: so do the rows of a sprite of at most 15. -/
theorem spriteCells_nodup (cx cy : Byte) (r : Nat) (rows : List Byte) (h : r + rows.length ≤ 15) :
    (spriteCells cx cy r rows).Nodup := by
  induction rows generalizing r with
  | nil => exact List.nodup_nil
  | cons row rows ih =>
    rw [List.length_cons] at h
    refine List.Nodup.append (rowCells_nodup cx cy row r) (ih (r + 1) (by omega)) fun p hrow hrows => ?_
    obtain ⟨_, -, -, rfl⟩ := mem_rowCells.1 hrow
    obtain ⟨k, hk, hp⟩ := mem_spriteCells.1 hrows
    obtain ⟨_, -, -, heq⟩ := mem_rowCells.1 hp
    have hsame : r = r + 1 + k := targetRow_injective (by omega) (by omega) (congrArg Prod.snd heq)
    omega

theorem pixel_toggleCell (acc : Display × Bool) (p q : Pixel) :
    (toggleCell acc p).1.pixel q.1 q.2 = if q = p then !acc.1.pixel q.1 q.2 else acc.1.pixel q.1 q.2 := by
  rw [toggleCell, Display.pixel_toggle]
  by_cases hq : q = p
  · rw [if_pos hq, if_pos ⟨congrArg Prod.fst hq, congrArg Prod.snd hq⟩, hq]
  · rw [if_neg hq, if_neg fun h => hq (Prod.ext h.1 h.2)]

/-- Cells toggled once each: a pixel ends true when it was true or is one of them, but not both. -/
theorem pixel_foldl_toggleCell {ps : List Pixel} (hps : ps.Nodup) (acc : Display × Bool) (q : Pixel) :
    (ps.foldl toggleCell acc).1.pixel q.1 q.2 = true ↔ ¬ (acc.1.pixel q.1 q.2 = true ↔ q ∈ ps) := by
  induction ps generalizing acc with
  | nil => simp
  | cons p ps ih =>
    obtain ⟨hp, hps⟩ := List.nodup_cons.1 hps
    rw [List.foldl_cons, ih hps, pixel_toggleCell]
    by_cases hq : q = p
    · subst hq
      simp [hp]
    · simp [hq]

/-- Cells toggled once each: the collision is that one of them was true before. -/
theorem collision_foldl_toggleCell {ps : List Pixel} (hps : ps.Nodup) (acc : Display × Bool) :
    (ps.foldl toggleCell acc).2 = true ↔ acc.2 = true ∨ ∃ p ∈ ps, acc.1.pixel p.1 p.2 = true := by
  induction ps generalizing acc with
  | nil => simp
  | cons p ps ih =>
    obtain ⟨hp, hps⟩ := List.nodup_cons.1 hps
    have hrest (q : Pixel) (hq : q ∈ ps) : (toggleCell acc p).1.pixel q.1 q.2 = acc.1.pixel q.1 q.2 := by
      rw [pixel_toggleCell, if_neg (ne_of_mem_of_not_mem hq hp)]
    have hexists : (∃ q ∈ ps, (toggleCell acc p).1.pixel q.1 q.2 = true) ↔ ∃ q ∈ ps, acc.1.pixel q.1 q.2 = true :=
      exists_congr fun q => and_congr_right fun hq => by rw [hrest q hq]
    rw [List.foldl_cons, ih hps, hexists]
    simp [toggleCell, or_assoc]

/-- Settles O29: the cells of at most 15 rows are all different, and each is toggled once. -/
theorem blitIsPixelwiseXor : Obligations.BlitIsPixelwiseXor := by
  intro d cx cy rows hlen
  have hnodup : (spriteCells cx cy 0 rows).Nodup := spriteCells_nodup cx cy 0 rows (by omega)
  have hblit : d.blit cx cy rows = (spriteCells cx cy 0 rows).foldl toggleCell (d, false) :=
    blitRows_eq_foldl cx cy 0 rows (d, false)
  rw [hblit]
  refine ⟨fun c r => ?_, ?_⟩
  · rw [spriteCovers_iff_mem]
    exact pixel_foldl_toggleCell hnodup (d, false) (c, r)
  · simp only [collision_foldl_toggleCell hnodup, spriteCovers_iff_mem, Prod.exists, Bool.false_eq_true, false_or]

@[simp] theorem spriteRows_length (s : State) (n : Nat) : (spriteRows s n).length = n := by
  simp [spriteRows]

/-- R214: Draw of rows that all exist blits them. -/
theorem exec_draw_ok {x y : Reg} {n : Nat} {s : State} (h : n = 0 ∨ s.base + n ≤ 0x1000) :
    exec (.draw x y n) s = .next (s.drawRows x y (spriteRows s n)) := by
  have hread := Memory.readBytes_ok s.mem s.base n h
  show s.attempt _ = _
  rw [hread]
  rfl

/-- R271 and R276: Draw of rows that run past the end. -/
theorem exec_draw_error {x y : Reg} {n : Nat} {s : State} (hn : 0 < n) (h : 0x1000 < s.base + n) :
    exec (.draw x y n) s = .next (s.takeFault (.memoryOutOfBounds (max s.base 0x1000))) := by
  have hread := Memory.readBytes_error s.mem s.base n hn h
  show s.attempt _ = _
  rw [hread]
  rfl

/-- Settles O31: the read of the rows fails as a whole, before anything is drawn. -/
theorem drawPastTheEndFaults : Obligations.DrawPastTheEndFaults := by
  intro x y n s hn h
  exact ⟨_, exec_draw_error hn h, faultedOnly_takeFault s _⟩

/-- R214 and R170: VF after a Draw is its collision flag. -/
theorem reg_vf_drawRows (x y : Reg) (s : State) (rows : List Byte) :
    (s.drawRows x y rows).reg vf = flagOf (s.disp.blit (s.reg x) (s.reg y) rows).2 := by
  rw [State.drawRows, State.reg_setFlag, if_pos rfl]
  rfl

section DrawnRows

variable {x y : Reg} {s : State} {rows : List Byte}

/-- R214: the pixels after a Draw. -/
theorem pixel_drawRows (hlen : rows.length ≤ 15) (c : Fin 64) (r : Fin 32) :
    (s.drawRows x y rows).disp.pixel c r = true ↔
      ¬ (s.disp.pixel c r = true ↔ spriteCovers (s.reg x) (s.reg y) rows c r) :=
  (blitIsPixelwiseXor s.disp (s.reg x) (s.reg y) rows hlen).1 c r

/-- R214: VF is 1 exactly where a covered pixel was true. -/
theorem reg_vf_drawRows_eq_one (hlen : rows.length ≤ 15) :
    (s.drawRows x y rows).reg vf = 1 ↔ ∃ c r, spriteCovers (s.reg x) (s.reg y) rows c r ∧ s.disp.pixel c r = true := by
  rw [reg_vf_drawRows, ← (blitIsPixelwiseXor s.disp (s.reg x) (s.reg y) rows hlen).2]
  exact flagOf_eq_one _

end DrawnRows

/-- Settles O30: the flag is 0 or 1, and 1 exactly where a covered pixel was true. -/
theorem drawBlitsTheSprite : Obligations.DrawBlitsTheSprite := by
  intro x y n s hwf h
  have hn : n < 16 := by simpa [Instr.wellFormed] using hwf
  have hlen : (spriteRows s n).length ≤ 15 := by rw [spriteRows_length]; omega
  refine ⟨_, exec_draw_ok h, pixel_drawRows hlen, (reg_vf_drawRows_eq_one hlen).2, fun hnone => ?_, fun k hk => ?_,
    onlyChanges_drawRows s x y _⟩
  · obtain hzero | hone := (Completes.draw x y n (spriteRows s n)).reg_vf_zero_or_one (s := s) rfl
    · exact hzero
    · exact absurd ((reg_vf_drawRows_eq_one hlen).1 hone) hnone
  · exact (Completes.draw x y n (spriteRows s n)).reg_eq (s := s) (by simp [destinations])
      fun hflag => hk (List.mem_singleton.2 hflag.1)

/-- R214: a Draw leaves the address and the bytes of its sprite. -/
theorem spriteRows_drawRows (s : State) (x y : Reg) (rows : List Byte) (n : Nat) :
    spriteRows (s.drawRows x y rows) n = spriteRows s n := rfl

/-- Settles O32: the second Draw covers the same cells, so that each is toggled twice, and a covered pixel that it finds true
is one that the first turned on. -/
theorem drawingTwiceRestoresTheDisplay : Obligations.DrawingTwiceRestoresTheDisplay := by
  intro x y n s t hwf h hexec hx hy
  have hn : n < 16 := by simpa [Instr.wellFormed] using hwf
  have hlen : (spriteRows s n).length ≤ 15 := by rw [spriteRows_length]; omega
  obtain rfl : s.drawRows x y (spriteRows s n) = t := Host.Outcome.next.inj ((exec_draw_ok h).symm.trans hexec)
  have hsecond : exec (.draw x y n) (s.drawRows x y (spriteRows s n)) = .next _ := exec_draw_ok h
  rw [spriteRows_drawRows] at hsecond
  have htoggled (c : Fin 64) (r : Fin 32) := pixel_drawRows (x := x) (y := y) (s := s) hlen c r
  generalize s.drawRows x y (spriteRows s n) = t at *
  have hback (c : Fin 64) (r : Fin 32) := pixel_drawRows (x := x) (y := y) (s := t) hlen c r
  have hflag := reg_vf_drawRows_eq_one (x := x) (y := y) (s := t) hlen
  rw [hx, hy] at hflag
  simp only [hx, hy] at hback
  refine ⟨_, hsecond, fun c r => ?_, hflag.trans (exists_congr fun c => exists_congr fun r => ?_)⟩
  · rw [Bool.eq_iff_iff, hback, htoggled]
    tauto
  · rw [htoggled, ← Bool.not_eq_true]
    tauto

end Sys2Proof.Machine
end
